-- ==== Sys2Proof/Word.lean ====
section
/-! DEFINITION. The data words of the P2DL unit: 32-bit words (00_scope.md R6) and the bytes the host window numbers (R45). -/

namespace Sys2Proof

/-- One SIMD lane's word (R6): every word of the unit has 32 bits. -/
abbrev Word := BitVec 32

/-- One byte of a word as the host window numbers bytes (R45). -/
abbrev Byte := BitVec 8

end Sys2Proof
end

