-- ==== Sys2Proof/Config.lean ====
section
/-! DEFINITION. What is fixed for the hardware and is no state (00_scope.md R2, R10; 10_state.md R37): the field's constants, the shift-count
range, and the one open parameter, the platform's choice of the window's base address. The diagonal tables, which R10 also lists, stand in
Machine/Diagonal.lean. -/

namespace Sys2Proof.Config

/-- `R_` of R2: the document's r. -/
abbrev r : Nat := 127

/-- `J_` of R2: the document's j. -/
abbrev j : Nat := 24

/-- `P` of R2: the modulus `r * 2^j + 1` = 0x7F000001. -/
abbrev P : Nat := 2130706433

/-- `HALF` of R2: `(P + 1) / 2`, the residue of 1/2. -/
abbrev half : Nat := 1065353217

/-- `NEGLIM` of R2: `2^32 - P`, the word whose signed value is `-P`. -/
abbrev negLim : Nat := 2164260863

/-- The least legal `k` of multiply-by-2^-k (R10, R63). -/
abbrev kMin : Nat := 1

/-- The greatest legal `k` of multiply-by-2^-k (R10, R63). -/
abbrev kMax : Nat := 24

/-- The platform's choice behind `P2DL_BASE` (R10, R41; U12): which 4096-byte page of the host's address space the window fills.
A free value: nothing in the model gives it. -/
opaque basePage : Nat

/-- `P2DL_BASE` (R41): a multiple of 4096, used by no rule. -/
def p2dlBase : Nat := 4096 * basePage

/-- The host's address of a window offset (R41: all offsets are from the base). -/
def hostAddress (offset : BitVec 12) : Nat := p2dlBase + offset.toNat

end Sys2Proof.Config
end

