-- ==== Sys2Proof/Syntax.lean ====
section
/-! DEFINITION. The 13 instructions of P2DL-1, one constructor per row of spec/opcode_table.json (30_encoding.md R62 to R66). -/

namespace Sys2Proof

/-- A 5-bit vector register number, naming `v0` to `v31` (R62). -/
abbrev VReg := Fin 32

/-- The two widths of a permutation state (R8, R64): fixed by the instruction, never by a register. -/
inductive Width where
  /-- WIDTH = 16 (field `w` = 0). -/
  | w16
  /-- WIDTH = 24 (field `w` = 1). -/
  | w24
deriving DecidableEq, Repr

/-- The number of positions of a permutation state (R8). -/
def Width.positions : Width → Nat
  | .w16 => 16
  | .w24 => 24

/-- The instructions of rule R66. `vd` is the destination, `va` and `vb` the first and second source, `vs` the register that holds
the row sum (R62); `k` is the shift count, whose legal values (R63) and the legal `vs` (R64) are checked by `Instr.wellFormed`. -/
inductive Instr where
  /-- VADD, R86. -/
  | vadd (vd va vb : VReg)
  /-- VSUB, R87. -/
  | vsub (vd va vb : VReg)
  /-- VSADD, R88. -/
  | vsadd (vd va vb : VReg)
  /-- VHALVE, R89. -/
  | vhalve (vd va : VReg)
  /-- VMUL2K, R90. -/
  | vmul2k (vd va : VReg) (k : Nat)
  /-- VNMUL2K, R91. -/
  | vnmul2k (vd va : VReg) (k : Nat)
  /-- DMUL.16, R106. -/
  | dmul16
  /-- DMUL.24, R107. -/
  | dmul24
  /-- ASUM.16, R110. -/
  | asum16 (vs : VReg)
  /-- ASUM.24, R111. -/
  | asum24 (vs : VReg)
  /-- DLIN.16, R114. -/
  | dlin16 (vs : VReg)
  /-- DLIN.24, R115. -/
  | dlin24 (vs : VReg)
  /-- HALT, R132. -/
  | halt
deriving DecidableEq, Repr

/-- The pseudo-instruction `vdbl vd, va` (R72): VADD with `va` as both sources. -/
abbrev Instr.vdbl (vd va : VReg) : Instr := .vadd vd va va

end Sys2Proof
end

