-- ==== Sys2Proof/WellFormed.lean ====
section
/-! DEFINITION. Which instruction terms are instructions of the unit: the extra conditions of 30_encoding.md R63 and R64. -/

namespace Sys2Proof

/-- R63: the legal shift counts are 1 to 24. -/
def shiftLegal (k : Nat) : Bool := decide (Config.kMin ≤ k ∧ k ≤ Config.kMax)

/-- R64: the sum register of ASUM and DLIN lies outside the state, `vs >= WIDTH`. -/
def sumLegal (w : Width) (vs : VReg) : Bool := decide (w.positions ≤ vs.val)

/-- The extra conditions of the rows of R66. A term that fails them has no encoding of its own. -/
def Instr.wellFormed : Instr → Bool
  | .vadd _ _ _ => true
  | .vsub _ _ _ => true
  | .vsadd _ _ _ => true
  | .vhalve _ _ => true
  | .vmul2k _ _ k => shiftLegal k
  | .vnmul2k _ _ k => shiftLegal k
  | .dmul16 => true
  | .dmul24 => true
  | .asum16 vs => sumLegal .w16 vs
  | .asum24 vs => sumLegal .w24 vs
  | .dlin16 vs => sumLegal .w16 vs
  | .dlin24 vs => sumLegal .w24 vs
  | .halt => true

end Sys2Proof
end

