-- ==== Sys2Proof/Decode.lean ====
section
/-! DEFINITION. Decoding (30_encoding.md R60 to R67, R70), the encoder written from the same tables, the opcode rows of R66 as data, the
fixed entry decodeTableWord, and the assembler spelling (R71). -/

namespace Sys2Proof

/-- `w[hi:lo]` of 00_scope.md section 8: bits `hi` down to `lo`, as an unsigned integer. -/
def bits (w : Word) (hi lo : Nat) : Nat := w.toNat / 2 ^ lo % 2 ^ (hi + 1 - lo)

/-- The 5-bit register field whose lowest bit is `lo` (R61, R62). -/
def regField (w : Word) (lo : Nat) : VReg := ⟨w.toNat / 2 ^ lo % 32, Nat.mod_lt _ (by decide)⟩

/-- Why a word is no instruction (R70). The unit does not tell these apart: all of them raise IllegalInstruction. -/
inductive Illegal where
  /-- `op` is not in R65. -/
  | reservedOpcode
  /-- A must-be-zero bit is set. -/
  | mustBeZero
  /-- `k = 0` or `k > 24`. -/
  | shiftCount
  /-- DMUL with a non-zero `vs`. -/
  | dmulSum
  /-- ASUM or DLIN with `vs < WIDTH`. -/
  | sumRegister
deriving DecidableEq, Repr

/-- Format R (R61): bits 10:0 must be zero. -/
def decodeR (mk : VReg → VReg → VReg → Instr) (w : Word) : Except Illegal Instr :=
  if bits w 10 0 = 0 then .ok (mk (regField w 21) (regField w 16) (regField w 11)) else .error .mustBeZero

/-- Format U (R61): bits 15:0 must be zero. -/
def decodeU (mk : VReg → VReg → Instr) (w : Word) : Except Illegal Instr :=
  if bits w 15 0 = 0 then .ok (mk (regField w 21) (regField w 16)) else .error .mustBeZero

/-- Format K (R61, R63): bits 15:6 must be zero, bit 5 is `n`, bits 4:0 are `k`. -/
def decodeK (pos neg : VReg → VReg → Nat → Instr) (w : Word) : Except Illegal Instr :=
  if bits w 15 6 = 0 then
    if shiftLegal (bits w 4 0) then
      .ok ((if bits w 5 5 = 0 then pos else neg) (regField w 21) (regField w 16) (bits w 4 0))
    else .error .shiftCount
  else .error .mustBeZero

/-- The must-be-zero fields of format M (R61): bits 25:16 and 10:1. -/
def zerosM (w : Word) : Bool := decide (bits w 25 16 = 0 ∧ bits w 10 1 = 0)

/-- The width field `w` of format M, bit 0 (R64). -/
def widthField (w : Word) : Width := if bits w 0 0 = 0 then .w16 else .w24

/-- Format M without a sum operand, DMUL (R64: `vs` must be 0). -/
def decodeDmul (w : Word) : Except Illegal Instr :=
  if zerosM w then
    if bits w 15 11 = 0 then
      match widthField w with
      | .w16 => .ok .dmul16
      | .w24 => .ok .dmul24
    else .error .dmulSum
  else .error .mustBeZero

/-- Format M with a sum operand, ASUM and DLIN (R64: `vs >= WIDTH`). -/
def decodeSum (mk16 mk24 : VReg → Instr) (w : Word) : Except Illegal Instr :=
  if zerosM w then
    if sumLegal (widthField w) (regField w 11) then
      match widthField w with
      | .w16 => .ok (mk16 (regField w 11))
      | .w24 => .ok (mk24 (regField w 11))
    else .error .sumRegister
  else .error .mustBeZero

/-- Format Z (R61), HALT: bits 25:0 must be zero. -/
def decodeZ (i : Instr) (w : Word) : Except Illegal Instr :=
  if bits w 25 0 = 0 then .ok i else .error .mustBeZero

/-- The decoder (R65 to R67): total on every word, by the word alone; a word that is no instruction is refused by name. -/
def decode (w : Word) : Except Illegal Instr :=
  if bits w 31 26 = 0x01 then decodeR .vadd w
  else if bits w 31 26 = 0x02 then decodeR .vsub w
  else if bits w 31 26 = 0x03 then decodeR .vsadd w
  else if bits w 31 26 = 0x04 then decodeU .vhalve w
  else if bits w 31 26 = 0x05 then decodeK .vmul2k .vnmul2k w
  else if bits w 31 26 = 0x08 then decodeDmul w
  else if bits w 31 26 = 0x09 then decodeSum .asum16 .asum24 w
  else if bits w 31 26 = 0x0A then decodeSum .dlin16 .dlin24 w
  else if bits w 31 26 = 0x3F then decodeZ .halt w
  else .error .reservedOpcode

/-! ### The encoder (R66, its last paragraph). The fields do not overlap, so their bitwise or is their sum. -/

/-- `(op << 26) | (vd << 21) | (va << 16) | (vb << 11)`: formats R and U (`vb = 0` in U). -/
def encodeRU (op vd va vb : Nat) : Word := BitVec.ofNat 32 (op * 2 ^ 26 + vd * 2 ^ 21 + va * 2 ^ 16 + vb * 2 ^ 11)

/-- `(op << 26) | (vd << 21) | (va << 16) | (n << 5) | k`: format K. -/
def encodeK (op vd va n k : Nat) : Word := BitVec.ofNat 32 (op * 2 ^ 26 + vd * 2 ^ 21 + va * 2 ^ 16 + n * 2 ^ 5 + k)

/-- `(op << 26) | (vs << 11) | w`: format M. -/
def encodeM (op vs w : Nat) : Word := BitVec.ofNat 32 (op * 2 ^ 26 + vs * 2 ^ 11 + w)

/-- The word of an instruction (R66). -/
def encode : Instr → Word
  | .vadd vd va vb => encodeRU 0x01 vd va vb
  | .vsub vd va vb => encodeRU 0x02 vd va vb
  | .vsadd vd va vb => encodeRU 0x03 vd va vb
  | .vhalve vd va => encodeRU 0x04 vd va 0
  | .vmul2k vd va k => encodeK 0x05 vd va 0 k
  | .vnmul2k vd va k => encodeK 0x05 vd va 1 k
  | .dmul16 => encodeM 0x08 0 0
  | .dmul24 => encodeM 0x08 0 1
  | .asum16 vs => encodeM 0x09 vs 0
  | .asum24 vs => encodeM 0x09 vs 1
  | .dlin16 vs => encodeM 0x0A vs 0
  | .dlin24 vs => encodeM 0x0A vs 1
  | .halt => BitVec.ofNat 32 (0x3F * 2 ^ 26)

/-! ### The table of R66 as data. -/

/-- The extra condition of a row of R66. -/
inductive RowCondition where
  /-- none -/
  | free
  /-- `1 <= k <= 24` -/
  | shift
  /-- `vs >= 16` -/
  | sum16
  /-- `vs >= 24` -/
  | sum24
deriving DecidableEq, Repr

/-- One row of R66: a word `x` is the row's instruction when `x & mask = match` and the extra condition holds. -/
structure OpcodeRow where
  mnemonic : String
  mask : Word
  value : Word
  condition : RowCondition
deriving DecidableEq, Repr

/-- The 13 rows of R66, in its order. -/
def opcodeRows : List OpcodeRow :=
  [ ⟨"VADD", 0xFC0007FF#32, 0x04000000#32, .free⟩,
    ⟨"VSUB", 0xFC0007FF#32, 0x08000000#32, .free⟩,
    ⟨"VSADD", 0xFC0007FF#32, 0x0C000000#32, .free⟩,
    ⟨"VHALVE", 0xFC00FFFF#32, 0x10000000#32, .free⟩,
    ⟨"VMUL2K", 0xFC00FFE0#32, 0x14000000#32, .shift⟩,
    ⟨"VNMUL2K", 0xFC00FFE0#32, 0x14000020#32, .shift⟩,
    ⟨"DMUL.16", 0xFFFFFFFF#32, 0x20000000#32, .free⟩,
    ⟨"DMUL.24", 0xFFFFFFFF#32, 0x20000001#32, .free⟩,
    ⟨"ASUM.16", 0xFFFF07FF#32, 0x24000000#32, .sum16⟩,
    ⟨"ASUM.24", 0xFFFF07FF#32, 0x24000001#32, .sum24⟩,
    ⟨"DLIN.16", 0xFFFF07FF#32, 0x28000000#32, .sum16⟩,
    ⟨"DLIN.24", 0xFFFF07FF#32, 0x28000001#32, .sum24⟩,
    ⟨"HALT", 0xFFFFFFFF#32, 0xFC000000#32, .free⟩ ]

/-- The extra condition of a row, read from a word's fields. -/
def RowCondition.holds (c : RowCondition) (w : Word) : Bool :=
  match c with
  | .free => true
  | .shift => shiftLegal (bits w 4 0)
  | .sum16 => sumLegal .w16 (regField w 11)
  | .sum24 => sumLegal .w24 (regField w 11)

/-- A word is the instruction of a row (R66). -/
def OpcodeRow.fits (row : OpcodeRow) (w : Word) : Bool := (w &&& row.mask) == row.value && row.condition.holds w

/-- An instruction's mnemonic, as the opcode table spells it. -/
def Instr.mnemonic : Instr → String
  | .vadd _ _ _ => "VADD"
  | .vsub _ _ _ => "VSUB"
  | .vsadd _ _ _ => "VSADD"
  | .vhalve _ _ => "VHALVE"
  | .vmul2k _ _ _ => "VMUL2K"
  | .vnmul2k _ _ _ => "VNMUL2K"
  | .dmul16 => "DMUL.16"
  | .dmul24 => "DMUL.24"
  | .asum16 _ => "ASUM.16"
  | .asum24 _ => "ASUM.24"
  | .dlin16 _ => "DLIN.16"
  | .dlin24 _ => "DLIN.24"
  | .halt => "HALT"

/-! ### Assembler spelling (R71). -/

/-- A register's name, `v0` to `v31`. -/
def regName (n : VReg) : String := "v" ++ Nat.repr n.val

/-- The line an instruction is written as (R71): lower case, operands separated by commas, `k` in decimal. -/
def Instr.asm : Instr → String
  | .vadd vd va vb => "vadd " ++ regName vd ++ ", " ++ regName va ++ ", " ++ regName vb
  | .vsub vd va vb => "vsub " ++ regName vd ++ ", " ++ regName va ++ ", " ++ regName vb
  | .vsadd vd va vb => "vsadd " ++ regName vd ++ ", " ++ regName va ++ ", " ++ regName vb
  | .vhalve vd va => "vhalve " ++ regName vd ++ ", " ++ regName va
  | .vmul2k vd va k => "vmul2k " ++ regName vd ++ ", " ++ regName va ++ ", " ++ Nat.repr k
  | .vnmul2k vd va k => "vnmul2k " ++ regName vd ++ ", " ++ regName va ++ ", " ++ Nat.repr k
  | .dmul16 => "dmul.16"
  | .dmul24 => "dmul.24"
  | .asum16 vs => "asum.16 " ++ regName vs
  | .asum24 vs => "asum.24 " ++ regName vs
  | .dlin16 vs => "dlin.16 " ++ regName vs
  | .dlin24 vs => "dlin.24 " ++ regName vs
  | .halt => "halt"

/-- The word whose low `nbits` bits are `w`'s and whose other bits are zero. -/
def tableWord (nbits w : Nat) : Word := BitVec.ofNat 32 (w % 2 ^ nbits)

/-- The instruction the decoder reads from an instruction whose bits are `w`, numbered as the opcode table numbers them. Every instruction
is one 32-bit word (R60), so a longer one is none. -/
def decodeTableWord (nbits w : Nat) : Option Instr :=
  if nbits ≤ 32 then (decode (tableWord nbits w)).toOption else none

end Sys2Proof
end

