-- ==== Sys2Proof/Machine/State.lean ====
section
/-! DEFINITION. The machine's state as plain data (10_state.md): the unit's registers, program counter, control fields and program store, and
beside them the host's pending actions and the answers it was given; the reasons a step can stop; the state after reset. -/

namespace Sys2Proof.Machine

/-- A lane vector (R6): 8 SIMD lanes of one word, lane 0 first. -/
abbrev LaneVec := Vector Word 8

/-- The vector register file (R20): `v0` to `v31`. -/
abbrev RegFile := Vector LaneVec 32

/-- The program store (R26, R43) by bytes: each cell is a window offset in `0x400 .. 0x7FF` and the byte there (R45), offsets strictly
rising. An offset not listed is a byte nothing has written: it has no value (U2; assumption 2). -/
abbrev Memory := List Host.Cell

/-- The unit's STATE field (R28), 2 bits. -/
inductive RunState where
  /-- 0: after reset, not executing. -/
  | idle
  /-- 1: the sequencer executes one instruction per step. -/
  | run
  /-- 2: a HALT completed, not executing. -/
  | halted
  /-- 3: a fault was raised, not executing; only reset leaves it. -/
  | fault
deriving DecidableEq, Repr

/-- The three faults the unit raises (R140). Raising one is a step of the machine: CAUSE and STATE record it (R146). -/
inductive UnitFault where
  /-- CAUSE 1, at decode (R141). -/
  | illegalInstruction
  /-- CAUSE 2, at execution (R142). -/
  | operandRange
  /-- CAUSE 3, at fetch (R143). -/
  | pcOverrun
deriving DecidableEq, Repr

/-- One host access to the window (R41, R46): its width in bits, its byte offset, and for a write the word. -/
inductive Access where
  | read (width : Nat) (offset : BitVec 12)
  | write (width : Nat) (offset : BitVec 12) (data : Word)
deriving DecidableEq, Repr

/-- What can happen next at the unit's boundary. The list of these in State is the host's stream (R49) with the sequencer's own steps marked
in it, so that plain data says which agent moves next. -/
inductive Event where
  /-- The sequencer takes its turn (R130). -/
  | unitStep
  /-- The host makes one access (R49). -/
  | access (a : Access)
  /-- The platform asserts the reset input (R160). -/
  | resetInput
  /-- Power-on (R160): the registers come up holding `regs`, which the spec leaves unspecified (R33), and no program word is written. -/
  | powerOn (regs : RegFile)
deriving DecidableEq, Repr

/-- What the platform's bus answers to one host access (R47). -/
inductive Reply where
  /-- An accepted read, with the word read. -/
  | data (w : Word)
  /-- An accepted write. -/
  | accepted
  /-- A refused access: no effect, no data. -/
  | refused
deriving DecidableEq, Repr

/-- The machine's state. The first five fields are the whole state of the unit (10_state.md; R11, R34); the last two are the model's own,
the host's side of the window (assumption 3). -/
structure State where
  /-- The vector registers (R20). -/
  v : RegFile
  /-- The program counter (R24), a 9-bit word index. -/
  pc : BitVec 9
  /-- STATE (R28). -/
  runState : RunState
  /-- CAUSE (R28), 4 bits: none is 0. -/
  cause : Option UnitFault
  /-- The program store (R26). -/
  pmem : Memory
  /-- What the host and the platform do next, in order; empty when only the sequencer has something to do. -/
  inbox : List Event
  /-- The answers to the host's accesses so far, the oldest first. -/
  replies : List Reply
deriving DecidableEq, Repr

/-- Why the machine stops. Neither is one of the unit's own faults, which are next states (R146). -/
inductive Fault where
  /-- The fetch (R130) or a host read (R43) of a program word nothing has written since power-on. Safe: the spec gives such a word an
  unspecified value and allows a model to stop there (R33, U2; assumption 2). -/
  | unwrittenProgramWord
  /-- A fetch with `pc` above 256, which addresses nothing (R24). Safe: no reachable state has such a `pc` (assumption 4). -/
  | pcBeyondStore
deriving DecidableEq, Repr

/-- Why an instruction has no meaning. -/
inductive Refusal where
  /-- Raised by exec's arms for an instruction not modelled yet; safe. No arm uses it: every instruction has its meaning. -/
  | notModelled (mnemonic : String)
deriving DecidableEq, Repr

/-- The machine right after power-on (R36): STATE = IDLE, CAUSE = 0, `pc` = 0, no program word written, nothing pending. The registers'
words are unspecified there (R33); this one state takes zero for them (DESIGN CHOICE, unsafe: assumption 1). Any other contents are
reached by `Event.powerOn`, and no statement rests on these zeros. -/
def State.reset : State where
  v := Vector.replicate 32 (Vector.replicate 8 0#32)
  pc := 0#9
  runState := .idle
  cause := none
  pmem := []
  inbox := []
  replies := []

end Sys2Proof.Machine
end

