-- ==== Sys2Proof/Machine/Operands.lean ====
section
/-! DEFINITION. Operands: the signed reading of a word, the two operand ranges (00_scope.md R3, R4), and the lane-by-lane forms every operand
takes (R7). There is no other operand form: no immediate is extended (R63) and no operand is in memory (R135). -/

namespace Sys2Proof.Machine

/-- `s32(w)` of 00_scope.md section 8: the two's-complement reading of a word. -/
def s32 (w : Word) : Int := if w.toNat < 2 ^ 31 then (w.toNat : Int) else (w.toNat : Int) - 2 ^ 32

/-- `u32(a)` of 00_scope.md section 8: `a mod 2^32` as a word. -/
def u32 (a : Int) : Word := BitVec.ofNat 32 (a % 2 ^ 32).toNat

/-- `canon(w)` (R3): the word is the canonical form of a residue. -/
def canon (w : Word) : Bool := decide (w.toNat < Config.P)

/-- `srange(w)` (R4): the signed value lies strictly between `-P` and `P`. -/
def srange (w : Word) : Bool := decide (-(Config.P : Int) < s32 w ∧ s32 w < (Config.P : Int))

/-- Every one of the 8 lanes of a register is in a range (R93 (2): every lane is checked). -/
def allLanes (range : Word → Bool) (x : LaneVec) : Bool := decide (∀ l : Fin 8, range x[l] = true)

/-- `v[d] <- f(v[a])` of 00_scope.md section 8, lane by lane. -/
def lanes1 (f : Word → Word) (x : LaneVec) : LaneVec := Vector.ofFn fun l => f x[l]

/-- `v[d] <- f(v[a], v[b])` of 00_scope.md section 8, lane by lane. -/
def lanes2 (f : Word → Word → Word) (x y : LaneVec) : LaneVec := Vector.ofFn fun l => f x[l] y[l]

end Sys2Proof.Machine
end

