-- ==== Sys2Proof/Machine/LaneFunctions.lean ====
section
/-! DEFINITION. The six lane functions on single words (40_lane_primitives.md R80 to R85). Each computes the exact integer of its rule and
narrows it to a word at the end; outside the domain of its rule the value means nothing, and no instruction uses it there (R93). -/

namespace Sys2Proof.Machine

/-- R80, field addition. -/
def fadd (a b : Word) : Word :=
  let t := a.toNat + b.toNat
  BitVec.ofNat 32 (if Config.P ≤ t then t - Config.P else t)

/-- R81, field subtraction, `a` minus `b`. -/
def fsub (a b : Word) : Word :=
  let t : Int := (a.toNat : Int) - (b.toNat : Int)
  u32 (if t < 0 then t + Config.P else t)

/-- R82, division by 2. -/
def fhalve (a : Word) : Word :=
  if a.toNat % 2 = 0 then BitVec.ofNat 32 (a.toNat / 2) else BitVec.ofNat 32 (a.toNat / 2 + Config.half)

/-- R83, signed addition: `a` canonical, `w` read as a signed integer. -/
def fsadd (a w : Word) : Word :=
  let s : Int := (a.toNat : Int) + s32 w
  u32 (if s < 0 then s + Config.P else if (Config.P : Int) ≤ s then s - Config.P else s)

/-- The signed integer `y` of R84. -/
def mul2kValue (a : Word) (k : Nat) : Int :=
  let hi := a.toNat / 2 ^ k
  let lo := a.toNat % 2 ^ k
  (hi : Int) - ((Config.r * lo * 2 ^ (Config.j - k) : Nat) : Int)

/-- R84, multiplication by `2^-k`. -/
def fmul2k (a : Word) (k : Nat) : Word := u32 (mul2kValue a k)

/-- R85, multiplication by `-2^-k`. -/
def fnmul2k (a : Word) (k : Nat) : Word := u32 (-mul2kValue a k)

end Sys2Proof.Machine
end

