-- ==== Sys2Proof/Machine/Diagonal.lean ====
section
/-! DEFINITION. The diagonal vectors as configuration constants (41_diagonal_layer.md R100, R101; D27, U5: one place, entry, kind and group per
position) and what DMUL and ASUM do with one row of them (R103, R105). -/

namespace Sys2Proof.Machine

/-- A diagonal entry `num / 2^exp`, the rational number the document prints. -/
structure DiagEntry where
  num : Int
  exp : Nat
deriving DecidableEq, Repr

/-- How DMUL realises an entry (R103). -/
inductive Kind where
  | one
  | dbl
  | half
  | tri
  | quad
  | p2k (k : Nat)
  | n2k (k : Nat)
deriving DecidableEq, Repr

/-- How ASUM folds the sum into a position (R105). -/
inductive Group where
  | add
  | sub
  | sadd
deriving DecidableEq, Repr

/-- One row of a diagonal table. -/
structure DiagRow where
  entry : DiagEntry
  kind : Kind
  group : Group
deriving DecidableEq, Repr

/-- Entry 0 of both tables, -2: position 0 is not processed (R104; 90_conflicts.md C1). -/
def entry0 : DiagEntry := ⟨-2, 0⟩

/-- Positions 1 to 10, the same in both tables (R101, its last sentence). -/
def diagCommon : List DiagRow :=
  [ ⟨⟨1, 0⟩, .one, .add⟩,
    ⟨⟨2, 0⟩, .dbl, .add⟩,
    ⟨⟨1, 1⟩, .half, .add⟩,
    ⟨⟨3, 0⟩, .tri, .add⟩,
    ⟨⟨4, 0⟩, .quad, .add⟩,
    ⟨⟨-1, 1⟩, .half, .sub⟩,
    ⟨⟨-3, 0⟩, .tri, .sub⟩,
    ⟨⟨-4, 0⟩, .quad, .sub⟩,
    ⟨⟨1, 8⟩, .p2k 8, .sadd⟩,
    ⟨⟨-1, 8⟩, .n2k 8, .sadd⟩ ]

/-- Table D16 (R100), positions 1 to 15. -/
def diag16 : List DiagRow := diagCommon ++
  [ ⟨⟨1, 3⟩, .p2k 3, .sadd⟩,
    ⟨⟨-1, 3⟩, .n2k 3, .sadd⟩,
    ⟨⟨-1, 4⟩, .n2k 4, .sadd⟩,
    ⟨⟨1, 24⟩, .p2k 24, .sadd⟩,
    ⟨⟨-1, 24⟩, .n2k 24, .sadd⟩ ]

/-- Table D24 (R101), positions 1 to 23. -/
def diag24 : List DiagRow := diagCommon ++
  [ ⟨⟨1, 2⟩, .p2k 2, .sadd⟩,
    ⟨⟨1, 3⟩, .p2k 3, .sadd⟩,
    ⟨⟨-1, 3⟩, .n2k 3, .sadd⟩,
    ⟨⟨1, 4⟩, .p2k 4, .sadd⟩,
    ⟨⟨-1, 4⟩, .n2k 4, .sadd⟩,
    ⟨⟨1, 5⟩, .p2k 5, .sadd⟩,
    ⟨⟨-1, 5⟩, .n2k 5, .sadd⟩,
    ⟨⟨1, 6⟩, .p2k 6, .sadd⟩,
    ⟨⟨-1, 6⟩, .n2k 6, .sadd⟩,
    ⟨⟨-1, 7⟩, .n2k 7, .sadd⟩,
    ⟨⟨-1, 9⟩, .n2k 9, .sadd⟩,
    ⟨⟨1, 24⟩, .p2k 24, .sadd⟩,
    ⟨⟨-1, 24⟩, .n2k 24, .sadd⟩ ]

/-- The table of a width, from position 1 on. -/
def diagTable : Width → List DiagRow
  | .w16 => diag16
  | .w24 => diag24

/-- The row of a position, `none` where the layer processes nothing: position 0 (R104) and registers outside the state (R23). -/
def row (w : Width) : Nat → Option DiagRow
  | 0 => none
  | i + 1 => (diagTable w)[i]?

/-- An entry as a field element (R100, R101, the residue column): `1/2^e` is the `e`-th power of HALF modulo P. -/
def DiagEntry.residue (d : DiagEntry) : Nat := (d.num * (Config.half : Int) ^ d.exp % (Config.P : Int)).toNat

/-- `dk(kind, x)` of R103. -/
def dk (kind : Kind) (x : Word) : Word :=
  match kind with
  | .one => x
  | .dbl => fadd x x
  | .half => fhalve x
  | .tri => fadd (fadd x x) x
  | .quad => fadd (fadd x x) (fadd x x)
  | .p2k k => fmul2k x k
  | .n2k k => fnmul2k x k

/-- `ag(group, s, y)` of R105. -/
def ag (group : Group) (s y : Word) : Word :=
  match group with
  | .add => fadd s y
  | .sub => fsub s y
  | .sadd => fsadd s y

/-- What ASUM requires of a position's word (R105, the column "required of y"). -/
def Group.range (group : Group) : Word → Bool :=
  match group with
  | .add => canon
  | .sub => canon
  | .sadd => srange

/-- The check of a macro instruction on the state registers (R116 (2)): every lane of every processed position is in the range its row needs. -/
def stateInRange (w : Width) (range : DiagRow → Word → Bool) (v : RegFile) : Bool :=
  decide (∀ i : Fin 32,
    (match row w i.val with
     | none => true
     | some r => allLanes (range r) v[i]) = true)

/-- The write of a macro instruction (R116 (4)): every processed position gets `f` of its row and its old words, every other register keeps
its words. -/
def mapState (w : Width) (f : DiagRow → LaneVec → LaneVec) (v : RegFile) : RegFile :=
  Vector.ofFn fun i =>
    match row w i.val with
    | none => v[i]
    | some r => f r v[i]

end Sys2Proof.Machine
end

