-- ==== Sys2Proof/Machine/Flags.lean ====
section
/-! DEFINITION. The unit has no flags (10_state.md R27): no condition code, carry, overflow or predicate bit. What stands here are the status
values the host sees: the numbers of STATE and CAUSE (R28), the STATUS word (R31) and the two level outputs (60_exceptions.md R151). -/

namespace Sys2Proof.Machine

/-- The STATE field's value (R28). -/
def RunState.code : RunState → Nat
  | .idle => 0
  | .run => 1
  | .halted => 2
  | .fault => 3

/-- A fault's number (R140). -/
def UnitFault.code : UnitFault → Nat
  | .illegalInstruction => 1
  | .operandRange => 2
  | .pcOverrun => 3

/-- The CAUSE field's value (R28): 0 when no fault was raised since reset. -/
def causeCode : Option UnitFault → Nat
  | none => 0
  | some f => f.code

/-- The word a host read of STATUS returns (R31): `STATE + (CAUSE << 4)`. -/
def statusWord (s : State) : Word := BitVec.ofNat 32 (s.runState.code + causeCode s.cause * 2 ^ 4)

/-- The word a host read of PC returns (R32): `pc` zero-extended. -/
def pcWord (s : State) : Word := BitVec.ofNat 32 s.pc.toNat

/-- The `done` output (R151). -/
def State.done (s : State) : Bool := decide (s.runState = .halted)

/-- The `fault` output (R151). -/
def State.faultOut (s : State) : Bool := decide (s.runState = .fault)

end Sys2Proof.Machine
end

