-- ==== Sys2Proof/Machine/Ops.lean ====
section
/-! DEFINITION. The named operations of the machine: the program store by bytes and words, registers, the program counter, raising a fault and
the reset that leaves it, fetching, and the execution templates of 40_lane_primitives.md R93 and 41_diagonal_layer.md R116. -/

namespace Sys2Proof.Machine

/-! ### The program store (R26, R43, R45). -/

/-- The byte at a window offset, `none` where nothing was written. -/
def Memory.read : Memory → Nat → Option Byte
  | [], _ => none
  | (k, b) :: m, a => if k = a then some b else Memory.read m a

/-- Store one byte, keeping the offsets strictly rising. -/
def Memory.write : Memory → Nat → Byte → Memory
  | [], a, b => [(a, b)]
  | (k, c) :: m, a, b =>
    if a < k then (a, b) :: (k, c) :: m
    else if a = k then (a, b) :: m
    else (k, c) :: Memory.write m a b

/-- The canonical form of the program store: offsets strictly rising, each in the store's part of the window (R43). A byte not listed has no
value, so there is no entry equal to what it would read as. -/
abbrev Memory.wf (m : Memory) : Prop :=
  m.Pairwise (fun c d => c.1 < d.1) ∧ ∀ c ∈ m, 0x400 ≤ c.1 ∧ c.1 < 0x800

/-- Byte `n` of a word, counted from the least significant (R45). -/
def byteOf (w : Word) (n : Nat) : Byte := BitVec.ofNat 8 (w.toNat / 256 ^ n)

/-- The word of four bytes, the least significant first (R45). -/
def wordOf (b0 b1 b2 b3 : Byte) : Word :=
  BitVec.ofNat 32 (b0.toNat + 256 * b1.toNat + 65536 * b2.toNat + 16777216 * b3.toNat)

/-- The word at a window offset, little-endian (R45); `none` unless all four bytes were written. -/
def Memory.readWord (m : Memory) (o : Nat) : Option Word :=
  match m.read o, m.read (o + 1), m.read (o + 2), m.read (o + 3) with
  | some b0, some b1, some b2, some b3 => some (wordOf b0 b1 b2 b3)
  | _, _, _, _ => none

/-- Store a word at a window offset, little-endian (R45). -/
def Memory.writeWord (m : Memory) (o : Nat) (w : Word) : Memory :=
  (((m.write o (byteOf w 0)).write (o + 1) (byteOf w 1)).write (o + 2) (byteOf w 2)).write (o + 3) (byteOf w 3)

/-- The window offset of `PMEM[a]` (R43). -/
def programOffset (a : Nat) : Nat := 0x400 + 4 * a

/-- `PMEM[a]` (R26), `none` where nothing wrote it since power-on (R33). -/
def programWord (m : Memory) (a : Nat) : Option Word := m.readWord (programOffset a)

/-- `PMEM[a] <- w` (R43). -/
def writeProgramWord (m : Memory) (a : Nat) (w : Word) : Memory := m.writeWord (programOffset a) w

/-! ### Registers and the program counter. -/

/-- `v[n]` (R20, R21: no register is hardwired, none has an alias). -/
def State.readV (s : State) (n : VReg) : LaneVec := s.v[n]

/-- `v[n] <- x`, all 8 lanes. -/
def State.writeV (s : State) (n : VReg) (x : LaneVec) : State := { s with v := s.v.set n.val x n.isLt }

/-- `v[n][l] <- w`, one lane (R42). -/
def State.writeLane (s : State) (n : VReg) (l : Fin 8) (w : Word) : State := s.writeV n ((s.readV n).set l.val w l.isLt)

/-- `pc <- pc + 1` (R25). -/
def State.advance (s : State) : State := { s with pc := s.pc + 1#9 }

/-! ### Faults and reset. -/

/-- `raise <Fault>` (R146), the unit's one way of taking a fault: CAUSE and STATE record it; `pc`, the registers and the program store stay.
There is no handler to go to and nothing else is saved (R144). -/
def State.raise (s : State) (f : UnitFault) : State := { s with cause := some f, runState := .fault }

/-- Reset's effect on the control state (R160): the only way out of FAULT (R148, R161), which has no other return. -/
def State.resetControl (s : State) : State := { s with runState := .idle, cause := none, pc := 0#9 }

/-- Power-on (R36, R161): reset, and the storage holds unspecified words: the registers come up as `regs`, no program word is written. -/
def State.powerOn (s : State) (regs : RegFile) : State := { s.resetControl with v := regs, pmem := [] }

/-! ### Fetch (R130, steps 1 and 2). -/

/-- What the fetch of one step finds. -/
inductive Fetched where
  /-- `pc` = 256: past the end, nothing is fetched (R143). -/
  | overrun
  /-- `pc` above 256: addresses nothing, in no reachable state. -/
  | outside
  /-- Nothing has written `PMEM[pc]` (R33). -/
  | unwritten
  /-- The word `PMEM[pc]`. -/
  | word (w : Word)
deriving DecidableEq, Repr

/-- Steps 1 and 2 of R130. -/
def fetch (s : State) : Fetched :=
  if s.pc.toNat = 256 then .overrun
  else if 256 < s.pc.toNat then .outside
  else
    match programWord s.pmem s.pc.toNat with
    | none => .unwritten
    | some w => .word w

/-! ### The execution templates. -/

/-- R93 (3), (4) and R116 (3), (4): when every operand is in range the step ends in `done`, otherwise it raises OperandRange and nothing is
written. -/
def State.checked (s : State) (inRange : Bool) (done : State) : State := if inRange then done else s.raise .operandRange

/-- R93 for one source register. -/
def State.unary (s : State) (f : Word → Word) (vd va : VReg) : State :=
  s.checked (allLanes canon (s.readV va)) (s.writeV vd (lanes1 f (s.readV va))).advance

/-- R93 for two source registers: the first must be canonical, the second in `range`. -/
def State.binary (s : State) (range : Word → Bool) (f : Word → Word → Word) (vd va vb : VReg) : State :=
  s.checked (allLanes canon (s.readV va) && allLanes range (s.readV vb))
    (s.writeV vd (lanes2 f (s.readV va) (s.readV vb))).advance

/-- R116 for DMUL (R106, R107): every processed position must be canonical and becomes `dk(kind, x)`. -/
def State.dmul (s : State) (w : Width) : State :=
  s.checked (stateInRange w (fun _ => canon) s.v)
    ({ s with v := mapState w (fun r x => lanes1 (dk r.kind) x) s.v } : State).advance

/-- R116 for ASUM (R110, R111): the sum must be canonical, every processed position in its group's range; it becomes `ag(group, S, y)`. -/
def State.asum (s : State) (w : Width) (vs : VReg) : State :=
  s.checked (allLanes canon (s.readV vs) && stateInRange w (fun r => r.group.range) s.v)
    ({ s with v := mapState w (fun r y => lanes2 (ag r.group) (s.readV vs) y) s.v } : State).advance

/-- R116 for DLIN (R114, R115): sum and state canonical; every processed position becomes `ag(group, S, dk(kind, x))`. -/
def State.dlin (s : State) (w : Width) (vs : VReg) : State :=
  s.checked (allLanes canon (s.readV vs) && stateInRange w (fun _ => canon) s.v)
    ({ s with v := mapState w (fun r x => lanes2 (fun sum y => ag r.group sum (dk r.kind y)) (s.readV vs) x) s.v } : State).advance

/-- A shift count or sum register outside its legal values is no instruction (R63, R64, R70): such a term raises IllegalInstruction, before
any register is read (R141). No word decodes to one. -/
def State.legal (s : State) (isLegal : Bool) (result : State) : State := if isLegal then result else s.raise .illegalInstruction

end Sys2Proof.Machine
end

