-- ==== Sys2Proof/Machine/DiagonalLayer.lean ====
section
/-! DEFINITION. The meanings of the macro instructions (41_diagonal_layer.md R106, R107, R110, R111, R114, R115). -/

namespace Sys2Proof.Machine

/-- DMUL.16 (R106). -/
def execDmul16 (s : State) : Host.Outcome State Fault Refusal := .next (s.dmul .w16)

/-- DMUL.24 (R107). -/
def execDmul24 (s : State) : Host.Outcome State Fault Refusal := .next (s.dmul .w24)

/-- ASUM.16 `vs` (R110). -/
def execAsum16 (vs : VReg) (s : State) : Host.Outcome State Fault Refusal := .next (s.legal (sumLegal .w16 vs) (s.asum .w16 vs))

/-- ASUM.24 `vs` (R111). -/
def execAsum24 (vs : VReg) (s : State) : Host.Outcome State Fault Refusal := .next (s.legal (sumLegal .w24 vs) (s.asum .w24 vs))

/-- DLIN.16 `vs` (R114). -/
def execDlin16 (vs : VReg) (s : State) : Host.Outcome State Fault Refusal := .next (s.legal (sumLegal .w16 vs) (s.dlin .w16 vs))

/-- DLIN.24 `vs` (R115). -/
def execDlin24 (vs : VReg) (s : State) : Host.Outcome State Fault Refusal := .next (s.legal (sumLegal .w24 vs) (s.dlin .w24 vs))

end Sys2Proof.Machine
end

