-- ==== Sys2Proof/Machine/LanePrimitives.lean ====
section
/-! DEFINITION. The meanings of the lane primitive instructions (40_lane_primitives.md R86 to R91). -/

namespace Sys2Proof.Machine

/-- VADD `vd, va, vb` (R86). -/
def execVadd (vd va vb : VReg) (s : State) : Host.Outcome State Fault Refusal := .next (s.binary canon fadd vd va vb)

/-- VSUB `vd, va, vb` (R87). -/
def execVsub (vd va vb : VReg) (s : State) : Host.Outcome State Fault Refusal := .next (s.binary canon fsub vd va vb)

/-- VSADD `vd, va, vb` (R88): `va` canonical, `vb` signed. -/
def execVsadd (vd va vb : VReg) (s : State) : Host.Outcome State Fault Refusal := .next (s.binary srange fsadd vd va vb)

/-- VHALVE `vd, va` (R89). -/
def execVhalve (vd va : VReg) (s : State) : Host.Outcome State Fault Refusal := .next (s.unary fhalve vd va)

/-- VMUL2K `vd, va, k` (R90). -/
def execVmul2k (vd va : VReg) (k : Nat) (s : State) : Host.Outcome State Fault Refusal :=
  .next (s.legal (shiftLegal k) (s.unary (fun a => fmul2k a k) vd va))

/-- VNMUL2K `vd, va, k` (R91). -/
def execVnmul2k (vd va : VReg) (k : Nat) (s : State) : Host.Outcome State Fault Refusal :=
  .next (s.legal (shiftLegal k) (s.unary (fun a => fnmul2k a k) vd va))

end Sys2Proof.Machine
end

