-- ==== Sys2Proof/Machine/Sequencing.lean ====
section
/-! DEFINITION. The meaning of HALT (42_sequencing.md R132), the only instruction that is not arithmetic (R136). -/

namespace Sys2Proof.Machine

/-- HALT (R132): `STATE <- HALTED`, `pc` unchanged. -/
def execHalt (s : State) : Host.Outcome State Fault Refusal := .next { s with runState := .halted }

end Sys2Proof.Machine
end

