-- ==== Sys2Proof/Machine/Dispatch.lean ====
section
/-! DEFINITION. One arm per instruction (42_sequencing.md R130, step 4). -/

namespace Sys2Proof.Machine

def exec (i : Instr) (s : State) : Host.Outcome State Fault Refusal :=
  match i with
  | .vadd vd va vb => Sys2Proof.Machine.execVadd vd va vb s
  | .vsub vd va vb => Sys2Proof.Machine.execVsub vd va vb s
  | .vsadd vd va vb => Sys2Proof.Machine.execVsadd vd va vb s
  | .vhalve vd va => Sys2Proof.Machine.execVhalve vd va s
  | .vmul2k vd va k => Sys2Proof.Machine.execVmul2k vd va k s
  | .vnmul2k vd va k => Sys2Proof.Machine.execVnmul2k vd va k s
  | .dmul16 => Sys2Proof.Machine.execDmul16 s
  | .dmul24 => Sys2Proof.Machine.execDmul24 s
  | .asum16 vs => Sys2Proof.Machine.execAsum16 vs s
  | .asum24 vs => Sys2Proof.Machine.execAsum24 vs s
  | .dlin16 vs => Sys2Proof.Machine.execDlin16 vs s
  | .dlin24 vs => Sys2Proof.Machine.execDlin24 vs s
  | .halt => Sys2Proof.Machine.execHalt s

end Sys2Proof.Machine
end

