-- ==== Sys2Proof/Machine/HostPort.lean ====
section
/-! DEFINITION. The host window (20_memory.md R41 to R48; 10_state.md R29 to R32): what each 32-bit access does, and which are refused. -/

namespace Sys2Proof.Machine

/-- What stands at an aligned window offset (R41). -/
inductive Target where
  | lane (n : VReg) (l : Fin 8)
  | program (a : Nat)
  | ctrl
  | status
  | pc
  | reserved
deriving DecidableEq, Repr

/-- The window map (R41 to R44). -/
def target (offset : BitVec 12) : Target :=
  if h : offset.toNat < 0x400 then
    .lane ⟨offset.toNat / 32, Nat.div_lt_of_lt_mul h⟩ ⟨offset.toNat / 4 % 8, Nat.mod_lt _ (by decide)⟩
  else if offset.toNat < 0x800 then .program ((offset.toNat - 0x400) / 4)
  else if offset.toNat = 0x800 then .ctrl
  else if offset.toNat = 0x804 then .status
  else if offset.toNat = 0x808 then .pc
  else .reserved

/-- R46: the only access the window accepts is a 32-bit one at a multiple of 4. -/
def wellShaped (width : Nat) (offset : BitVec 12) : Bool := decide (width = 32 ∧ offset.toNat % 4 = 0)

/-- The unit is not running (R47: registers and program words can be read). -/
def RunState.readable : RunState → Bool
  | .idle => true
  | .run => false
  | .halted => true
  | .fault => true

/-- The unit is IDLE or HALTED (R47: registers, program words and PC can be written; R30: START is obeyed). -/
def RunState.loadable : RunState → Bool
  | .idle => true
  | .run => false
  | .halted => true
  | .fault => false

/-- `MemRead`: the answer to a host read (R42 to R44, R47); `none` for a program word nothing has written, whose value the spec leaves
unspecified (R33). -/
def windowRead (s : State) (width : Nat) (offset : BitVec 12) : Option Reply :=
  if wellShaped width offset then
    match target offset with
    | .lane n l => some (if s.runState.readable then .data (s.readV n)[l] else .refused)
    | .program a => if s.runState.readable then (programWord s.pmem a).map .data else some .refused
    | .ctrl => some .refused
    | .status => some (.data (statusWord s))
    | .pc => some (.data (pcWord s))
    | .reserved => some .refused
  else some .refused

/-- A host write of `w` to CTRL (R30): RESET wins over START; START is obeyed when IDLE or HALTED and ignored otherwise. -/
def State.writeCtrl (s : State) (w : Word) : State :=
  if w.getLsbD 1 then s.resetControl
  else if w.getLsbD 0 && s.runState.loadable then { s with runState := .run }
  else s

/-- `MemWrite`: the state after a host write and its answer (R42 to R44, R47; R32 for PC: `pc <- w[7:0]`). -/
def windowWrite (s : State) (width : Nat) (offset : BitVec 12) (w : Word) : State × Reply :=
  if wellShaped width offset then
    match target offset with
    | .lane n l => if s.runState.loadable then (s.writeLane n l w, .accepted) else (s, .refused)
    | .program a =>
      if s.runState.loadable then ({ s with pmem := writeProgramWord s.pmem a w }, .accepted) else (s, .refused)
    | .ctrl => (s.writeCtrl w, .accepted)
    | .status => (s, .refused)
    | .pc => if s.runState.loadable then ({ s with pc := BitVec.ofNat 9 (w.toNat % 256) }, .accepted) else (s, .refused)
    | .reserved => (s, .refused)
  else (s, .refused)

/-- The bus records the answer to an access. -/
def State.reply (s : State) (r : Reply) : State := { s with replies := s.replies ++ [r] }

/-- One host access in full (R49: it is complete before the next begins). -/
def hostAccess (a : Access) (s : State) : Host.Outcome State Fault Refusal :=
  match a with
  | .read width offset =>
    match windowRead s width offset with
    | some r => .next (s.reply r)
    | none => .fault .unwrittenProgramWord
  | .write width offset w => .next ((windowWrite s width offset w).1.reply (windowWrite s width offset w).2)

end Sys2Proof.Machine
end

