-- ==== Sys2Proof/Machine/Schedule.lean ====
section
/-! DEFINITION. The two agents of the machine (00_scope.md section 12): the sequencer, which steps only in STATE RUN (42_sequencing.md R130,
10_state.md R35), and the host with its platform, whose events take effect one at a time between two of its steps (20_memory.md R49,
70_reset_and_hazards.md R161). -/

namespace Sys2Proof.Machine

/-- Steps 3 to 5 of R130 on a fetched word: an illegal word raises IllegalInstruction (R141), any other is executed. -/
def runWord (w : Word) (s : State) : Host.Outcome State Fault Refusal :=
  match decode w with
  | .ok i => exec i s
  | .error _ => .next (s.raise .illegalInstruction)

/-- The sequencer's turn (R130): in IDLE, HALTED and FAULT it takes no step and the unit holds still (R35). -/
def sequencerTurn (s : State) : Host.Outcome State Fault Refusal :=
  match s.runState with
  | .run =>
    match fetch s with
    | .overrun => .next (s.raise .pcOverrun)
    | .outside => .fault .pcBeyondStore
    | .unwritten => .fault .unwrittenProgramWord
    | .word w => runWord w s
  | .idle => .next s
  | .halted => .next s
  | .fault => .next s

/-- One event at the unit's boundary. -/
def takeEvent (e : Event) (s : State) : Host.Outcome State Fault Refusal :=
  match e with
  | .unitStep => sequencerTurn s
  | .access a => hostAccess a s
  | .resetInput => .next s.resetControl
  | .powerOn regs => .next (s.powerOn regs)

/-- The next thing that happens: the first pending event, or the sequencer's turn when none is pending. -/
def takeTurn (s : State) : Host.Outcome State Fault Refusal :=
  match s.inbox with
  | [] => sequencerTurn s
  | e :: rest => takeEvent e { s with inbox := rest }

/-- The index at which the next fetch reads: `pc`, or 0 where `pc` addresses no word. -/
def fetchIndex (s : State) : Nat := if s.pc.toNat < 256 then s.pc.toNat else 0

/-- The unit loaded with word `w` where it fetches next, and started (R52 steps 1 to 3 in one): STATE is RUN, no fault is recorded, nothing
else is pending. -/
def State.loadedWith (s : State) (w : Word) : State :=
  { s with
    pc := BitVec.ofNat 9 (fetchIndex s)
    runState := .run
    cause := none
    pmem := writeProgramWord s.pmem (fetchIndex s) w
    inbox := [] }

end Sys2Proof.Machine
end

