-- ==== Sys2Proof/Machine/Step.lean ====
section
/-! DEFINITION. The machine's step, and the placing of one instruction where it fetches next. -/

namespace Sys2Proof.Machine

/-- One step of the machine: the next pending event of the host or the platform, or the sequencer's step (R130). -/
def step (s : State) : Host.Outcome State Fault Refusal := takeTurn s

/-- `s` with the instruction whose low `nbits` bits are `w` placed where the next step fetches, and the unit running (assumption 5). -/
def State.withFetchWord (s : State) (nbits w : Nat) : State := s.loadedWith (Sys2Proof.tableWord nbits w)

end Sys2Proof.Machine
end

