-- ==== Sys2Proof/Safety.lean ====
section
/-! DEFINITION. The terms the claims use: the invariant of the machine, when the operands of an instruction are in range (the table of
60_exceptions.md R142, position by position), which registers an instruction writes, the reference values of the diagonal layer (the columns of
41_diagonal_layer.md R100 and R101 written out again), and the primitive sequences of R118. -/

namespace Sys2Proof.Machine

/-! ### The invariant. -/

/-- Host writes are whole words (R46, R48): the four bytes of a program word are written together or not at all. -/
abbrev Memory.wholeWords (m : Memory) : Prop :=
  ∀ a : Fin 256, ∀ n : Fin 4, (m.read (programOffset a.val + n.val)).isSome = (m.read (programOffset a.val)).isSome

/-- What every step keeps: `pc` is in `0 .. 256` (R24), CAUSE is non-zero exactly when STATE = FAULT (R28), and the program store has its
canonical form and holds whole words. -/
abbrev State.Inv (s : State) : Prop :=
  s.pc.toNat ≤ 256 ∧ (s.cause ≠ none ↔ s.runState = .fault) ∧ s.pmem.wf ∧ s.pmem.wholeWords

/-- Every program word from `pc` on was written (R163 (a)). -/
abbrev State.programWritten (s : State) : Prop :=
  ∀ a : Fin 256, s.pc.toNat ≤ a.val → programWord s.pmem a.val ≠ none

/-- R133: the run ended well. -/
def State.endedWell (s : State) : Bool := decide (s.runState = .halted ∧ s.cause = none)

/-- R133: the run ended badly. -/
def State.endedBadly (s : State) : Bool := decide (s.runState = .fault)

/-! ### Operands and destinations, instruction by instruction. -/

/-- All 8 lanes of `v[n]` are canonical. -/
abbrev State.canonReg (s : State) (n : VReg) : Prop := ∀ l : Fin 8, canon s.v[n][l] = true

/-- All 8 lanes of `v[n]` are signed-range words. -/
abbrev State.signedReg (s : State) (n : VReg) : Prop := ∀ l : Fin 8, srange s.v[n][l] = true

/-- All lanes of `v[lo] .. v[hi]` are canonical. -/
abbrev State.canonRegs (s : State) (lo hi : Nat) : Prop := ∀ n : VReg, lo ≤ n.val → n.val ≤ hi → s.canonReg n

/-- All lanes of `v[lo] .. v[hi]` are signed-range words. -/
abbrev State.signedRegs (s : State) (lo hi : Nat) : Prop := ∀ n : VReg, lo ≤ n.val → n.val ≤ hi → s.signedReg n

/-- The required ranges of R142, instruction by instruction. -/
def operandsInRange : Instr → State → Bool
  | .vadd _ va vb, s => decide (s.canonReg va ∧ s.canonReg vb)
  | .vsub _ va vb, s => decide (s.canonReg va ∧ s.canonReg vb)
  | .vsadd _ va vb, s => decide (s.canonReg va ∧ s.signedReg vb)
  | .vhalve _ va, s => decide (s.canonReg va)
  | .vmul2k _ va _, s => decide (s.canonReg va)
  | .vnmul2k _ va _, s => decide (s.canonReg va)
  | .dmul16, s => decide (s.canonRegs 1 15)
  | .dmul24, s => decide (s.canonRegs 1 23)
  | .asum16 vs, s => decide (s.canonReg vs ∧ s.canonRegs 1 8 ∧ s.signedRegs 9 15)
  | .asum24 vs, s => decide (s.canonReg vs ∧ s.canonRegs 1 8 ∧ s.signedRegs 9 23)
  | .dlin16 vs, s => decide (s.canonReg vs ∧ s.canonRegs 1 15)
  | .dlin24 vs, s => decide (s.canonReg vs ∧ s.canonRegs 1 23)
  | .halt, _ => true

/-- The registers an instruction writes when it completes (R21, R86 to R91, R106 to R115). -/
def writesReg : Instr → VReg → Bool
  | .vadd vd _ _, n => decide (n = vd)
  | .vsub vd _ _, n => decide (n = vd)
  | .vsadd vd _ _, n => decide (n = vd)
  | .vhalve vd _, n => decide (n = vd)
  | .vmul2k vd _ _, n => decide (n = vd)
  | .vnmul2k vd _ _, n => decide (n = vd)
  | .dmul16, n => decide (1 ≤ n.val ∧ n.val ≤ 15)
  | .dmul24, n => decide (1 ≤ n.val ∧ n.val ≤ 23)
  | .asum16 _, n => decide (1 ≤ n.val ∧ n.val ≤ 15)
  | .asum24 _, n => decide (1 ≤ n.val ∧ n.val ≤ 23)
  | .dlin16 _, n => decide (1 ≤ n.val ∧ n.val ≤ 15)
  | .dlin24 _, n => decide (1 ≤ n.val ∧ n.val ≤ 23)
  | .halt, _ => false

/-- The registers a macro instruction reads (R106 to R115); the lane primitives and HALT are not asked here. -/
def macroReads : Instr → VReg → Bool
  | .dmul16, n => decide (1 ≤ n.val ∧ n.val ≤ 15)
  | .dmul24, n => decide (1 ≤ n.val ∧ n.val ≤ 23)
  | .asum16 vs, n => decide (n = vs ∨ (1 ≤ n.val ∧ n.val ≤ 15))
  | .asum24 vs, n => decide (n = vs ∨ (1 ≤ n.val ∧ n.val ≤ 23))
  | .dlin16 vs, n => decide (n = vs ∨ (1 ≤ n.val ∧ n.val ≤ 15))
  | .dlin24 vs, n => decide (n = vs ∨ (1 ≤ n.val ∧ n.val ≤ 23))
  | .vadd _ _ _, _ => true
  | .vsub _ _ _, _ => true
  | .vsadd _ _ _, _ => true
  | .vhalve _ _, _ => true
  | .vmul2k _ _ _, _ => true
  | .vnmul2k _ _ _, _ => true
  | .halt, _ => true

/-- DMUL of a width. -/
def dmulOf : Width → Instr
  | .w16 => .dmul16
  | .w24 => .dmul24

/-- ASUM of a width. -/
def asumOf : Width → VReg → Instr
  | .w16, vs => .asum16 vs
  | .w24, vs => .asum24 vs

/-- DLIN of a width. -/
def dlinOf : Width → VReg → Instr
  | .w16, vs => .dlin16 vs
  | .w24, vs => .dlin24 vs

/-- What R114 says of DLIN beside the pair DMUL, ASUM, run from `s`: with a canonical sum DLIN leaves what the pair leaves, with one step of
`pc` instead of two; on a non-canonical sum the pair has run DMUL when ASUM faults, and DLIN faults with the registers intact. -/
def State.dlinIsThePair (s : State) (w : Width) (vs : VReg) : Prop :=
  ∃ t, exec (dmulOf w) s = .next t ∧ t.pc = s.pc + 1 ∧
    (s.canonReg vs →
      ∃ u, exec (asumOf w vs) t = .next u ∧ u.pc = s.pc + 2 ∧ exec (dlinOf w vs) s = .next { u with pc := s.pc + 1 }) ∧
    ((∃ l : Fin 8, canon s.v[vs][l] = false) →
      exec (asumOf w vs) t = .next { t with cause := some .operandRange, runState := .fault } ∧
      exec (dlinOf w vs) s = .next { s with cause := some .operandRange, runState := .fault })

/-! ### The reference values of the layer. -/

/-- The kind column of R100 and R101, from position 1 on. -/
def kindColumn : Width → List Kind
  | .w16 => [.one, .dbl, .half, .tri, .quad, .half, .tri, .quad, .p2k 8, .n2k 8, .p2k 3, .n2k 3, .n2k 4, .p2k 24, .n2k 24]
  | .w24 => [.one, .dbl, .half, .tri, .quad, .half, .tri, .quad, .p2k 8, .n2k 8, .p2k 2, .p2k 3, .n2k 3, .p2k 4, .n2k 4, .p2k 5,
      .n2k 5, .p2k 6, .n2k 6, .n2k 7, .n2k 9, .p2k 24, .n2k 24]

/-- The residue column of R100 and R101, from position 0 on. -/
def residueColumn : Width → List Nat
  | .w16 => [2130706431, 1, 2, 1065353217, 3, 4, 1065353216, 2130706430, 2130706429, 2122383361, 8323072, 1864368129, 266338304,
      133169152, 2130706306, 127]
  | .w24 => [2130706431, 1, 2, 1065353217, 3, 4, 1065353216, 2130706430, 2130706429, 2122383361, 8323072, 1598029825, 1864368129,
      266338304, 1997537281, 133169152, 2064121857, 66584576, 2097414145, 33292288, 16646144, 4161536, 2130706306, 127]

/-- The layer's result at one position (R102, the scalar reference): `(sum + D[i] * x) mod P`. -/
def layerOut (w : Width) (i : Nat) (sum x : Nat) : Nat := (sum + (residueColumn w).getD i 0 * x) % Config.P

/-! ### Sequences of instructions, and R118's. -/

/-- Run instructions one after another from a running unit, stopping where the unit stops (R130). -/
def execSeq : List Instr → State → Host.Outcome State Fault Refusal
  | [], s => .next s
  | i :: is, s =>
    match exec i s with
    | .next t => if t.runState = .run then execSeq is t else .next t
    | .fault f => .fault f
    | .refused r => .refused r

/-- R118's sequence for one position of DMUL, `vt` the scratch register. -/
def kindSequence (kind : Kind) (vi vt : VReg) : List Instr :=
  match kind with
  | .one => []
  | .dbl => [.vadd vi vi vi]
  | .half => [.vhalve vi vi]
  | .tri => [.vadd vt vi vi, .vadd vi vt vi]
  | .quad => [.vadd vi vi vi, .vadd vi vi vi]
  | .p2k k => [.vmul2k vi vi k]
  | .n2k k => [.vnmul2k vi vi k]

/-- R118's instruction for one position of ASUM. -/
def groupInstr (group : Group) (vs vi : VReg) : Instr :=
  match group with
  | .add => .vadd vi vs vi
  | .sub => .vsub vi vs vi
  | .sadd => .vsadd vi vs vi

/-- The registers `v1 .. v[WIDTH-1]`, in order. -/
def stateRegs (w : Width) : List VReg := (List.finRange 32).filter fun n => decide (1 ≤ n.val ∧ n.val < w.positions)

/-- R118's sequence for DMUL: each position's, in order. -/
def dmulSequence (w : Width) (vt : VReg) : List Instr :=
  (stateRegs w).flatMap fun vi => kindSequence ((kindColumn w).getD (vi.val - 1) .one) vi vt

/-- The group of a position (R105): ADD at 1 to 5, SUB at 6 to 8, SADD from 9 on. -/
def groupAt (i : Nat) : Group := if i ≤ 5 then .add else if i ≤ 8 then .sub else .sadd

/-- R118's sequence for ASUM: each position's instruction, in order. -/
def asumSequence (w : Width) (vs : VReg) : List Instr := (stateRegs w).map fun vi => groupInstr (groupAt vi.val) vs vi

/-! ### Events. -/

/-- What happens next: the first pending event, or the sequencer's turn. -/
def State.nextEvent (s : State) : Event := s.inbox.headD .unitStep

/-- The state as the next event finds it: that event is no longer pending. -/
def State.taken (s : State) : State := { s with inbox := s.inbox.tail }

/-- A reset (R35, R160): power-on, the reset input, or an accepted CTRL write with bit 1 set. -/
def Event.isReset : Event → Bool
  | .resetInput => true
  | .powerOn _ => true
  | .access (.write width offset w) => decide (width = 32 ∧ offset = 0x800#12) && w.getLsbD 1
  | .access (.read _ _) => false
  | .unitStep => false

/-- A START (R35): a CTRL write with bit 1 clear and bit 0 set. -/
def Event.isStart : Event → Bool
  | .access (.write width offset w) => decide (width = 32 ∧ offset = 0x800#12) && !w.getLsbD 1 && w.getLsbD 0
  | .access (.read _ _) => false
  | .resetInput => false
  | .powerOn _ => false
  | .unitStep => false

end Sys2Proof.Machine
end

