-- ==== Sys2Proof/Certificates/Slice0/Obligations.lean ====
section
/-! DEFINITION. The statements for the provers, from the numbered rules of the spec. OBLIGATIONS.json lists them with their rules. -/

open Sys2Proof Sys2Proof.Machine

/-! ## Encoding (30_encoding.md) -/

/-- R73: the worked encodings and their illegal neighbours. -/
def Obligations.WorkedEncodingsDecodeAsListed : Prop :=
  decode 0x04611000#32 = .ok (.vadd 3 1 2) ∧
  decode 0x0A100000#32 = .ok (.vsub 16 16 0) ∧
  decode 0x0CBE4800#32 = .ok (.vsadd 5 30 9) ∧
  decode 0x10420000#32 = .ok (.vhalve 2 2) ∧
  decode 0x15290008#32 = .ok (.vmul2k 9 9 8) ∧
  decode 0x154A0028#32 = .ok (.vnmul2k 10 10 8) ∧
  decode 0x15CE0018#32 = .ok (.vmul2k 14 14 24) ∧
  decode 0x20000000#32 = .ok .dmul16 ∧
  decode 0x20000001#32 = .ok .dmul24 ∧
  decode 0x24008000#32 = .ok (.asum16 16) ∧
  decode 0x2400C001#32 = .ok (.asum24 24) ∧
  decode 0x2800F800#32 = .ok (.dlin16 31) ∧
  decode 0x2800F801#32 = .ok (.dlin24 31) ∧
  decode 0xFC000000#32 = .ok .halt ∧
  decode 0x15290000#32 = .error .shiftCount ∧
  decode 0x15290019#32 = .error .shiftCount ∧
  decode 0x24007800#32 = .error .sumRegister ∧
  decode 0x2400B801#32 = .error .sumRegister ∧
  decode 0x20000800#32 = .error .dmulSum ∧
  decode 0x04611001#32 = .error .mustBeZero ∧
  decode 0x00000000#32 = .error .reservedOpcode

/-- Every well-formed instruction, with every operand at every value its encoding admits, is what its own word decodes to. -/
def Obligations.DecodeOfEncodeIsTheInstruction : Prop :=
  ∀ i : Instr, i.wellFormed = true → decode (encode i) = .ok i

/-- The other direction: an instruction's word is unique, and no word decodes to an ill-formed term. -/
def Obligations.DecodedWordIsItsEncoding : Prop :=
  ∀ (w : Word) (i : Instr), decode w = .ok i → i.wellFormed = true ∧ encode i = w

/-- R67 with the table of R66: a word that decodes fits the row of its instruction and no other, and a word that does not decode fits none. -/
def Obligations.EveryWordFitsOneRowOrIsIllegal : Prop :=
  ∀ w : Word,
    (∃ i row, decode w = .ok i ∧ row ∈ opcodeRows ∧ row.fits w = true ∧ row.mnemonic = i.mnemonic ∧
      ∀ other ∈ opcodeRows, other.fits w = true → other = row) ∨
    (∃ reason, decode w = .error reason ∧ ∀ row ∈ opcodeRows, row.fits w = false)

/-- R70: the illegal words are exactly those the rule lists, and a running unit that fetches one raises IllegalInstruction. -/
def Obligations.IllegalWordsAreTheListedOnes : Prop :=
  (∀ w : Word,
    (∃ reason, decode w = .error reason) ↔
      (bits w 31 26 = 0x00 ∨ bits w 31 26 = 0x06 ∨ bits w 31 26 = 0x07 ∨ (0x0B ≤ bits w 31 26 ∧ bits w 31 26 ≤ 0x3E)) ∨
      (bits w 31 26 ∈ [0x01, 0x02, 0x03] ∧ bits w 10 0 ≠ 0) ∨
      (bits w 31 26 = 0x04 ∧ bits w 15 0 ≠ 0) ∨
      (bits w 31 26 = 0x05 ∧ (bits w 15 6 ≠ 0 ∨ bits w 4 0 = 0 ∨ 24 < bits w 4 0)) ∨
      (bits w 31 26 ∈ [0x08, 0x09, 0x0A] ∧ (bits w 25 16 ≠ 0 ∨ bits w 10 1 ≠ 0)) ∨
      (bits w 31 26 = 0x08 ∧ bits w 15 11 ≠ 0) ∨
      (bits w 31 26 ∈ [0x09, 0x0A] ∧ bits w 15 11 < (if bits w 0 0 = 0 then 16 else 24)) ∨
      (bits w 31 26 = 0x3F ∧ bits w 25 0 ≠ 0)) ∧
  (∃ reason, decode 0x00000000#32 = .error reason) ∧
  (∃ reason, decode 0xFFFFFFFF#32 = .error reason) ∧
  (∀ (s : State) (w : Word) (reason : Illegal),
    s.inbox = [] → s.runState = .run → s.pc.toNat < 256 → programWord s.pmem s.pc.toNat = some w → decode w = .error reason →
      step s = .next { s with cause := some .illegalInstruction, runState := .fault })

/-! ## Words and lane functions (00_scope.md, 40_lane_primitives.md) -/

/-- R4: the two operand ranges as sets of unsigned words, and the words in neither. -/
def Obligations.OperandRangesAsUnsignedSets : Prop :=
  ∀ w : Word,
    (canon w = true ↔ w.toNat ≤ 0x7F000000) ∧
    (srange w = true ↔ -(Config.P : Int) < s32 w ∧ s32 w < Config.P) ∧
    (srange w = true ↔ w.toNat < Config.P ∨ Config.negLim < w.toNat) ∧
    (srange w = true ↔ w.toNat ≤ 0x7F000000 ∨ 0x81000000 ≤ w.toNat) ∧
    (0x7F000001 ≤ w.toNat → w.toNat ≤ 0x80FFFFFF → canon w = false ∧ srange w = false)

/-- R80. -/
def Obligations.FaddIsFieldAddition : Prop :=
  ∀ a b : Word, canon a = true → canon b = true →
    a.toNat + b.toNat ≤ 2 * Config.P - 2 ∧ 2 * Config.P - 2 < 2 ^ 32 ∧
    (fadd a b).toNat = (if a.toNat + b.toNat ≥ Config.P then a.toNat + b.toNat - Config.P else a.toNat + b.toNat) ∧
    canon (fadd a b) = true ∧
    (fadd a b).toNat = (a.toNat + b.toNat) % Config.P

/-- R81. -/
def Obligations.FsubIsFieldSubtraction : Prop :=
  ∀ a b : Word, canon a = true → canon b = true →
    ((fsub a b).toNat : Int) =
      (if (a.toNat : Int) - b.toNat < 0 then (a.toNat : Int) - b.toNat + Config.P else (a.toNat : Int) - b.toNat) ∧
    canon (fsub a b) = true ∧
    ((fsub a b).toNat : Int) = ((a.toNat : Int) - b.toNat) % Config.P

/-- R82. -/
def Obligations.FhalveIsTheUniqueHalf : Prop :=
  ∀ a : Word, canon a = true →
    (fhalve a).toNat = (if a.toNat % 2 = 0 then a.toNat >>> 1 else (a.toNat >>> 1) + Config.half) ∧
    canon (fhalve a) = true ∧
    2 * (fhalve a).toNat % Config.P = a.toNat ∧
    (∀ h : Nat, h < Config.P → 2 * h % Config.P = a.toNat → h = (fhalve a).toNat)

/-- R83. -/
def Obligations.FsaddIsSignedAddition : Prop :=
  ∀ a w : Word, canon a = true → srange w = true →
    ((fsadd a w).toNat : Int) =
      (if (a.toNat : Int) + s32 w < 0 then (a.toNat : Int) + s32 w + Config.P
       else if (a.toNat : Int) + s32 w ≥ Config.P then (a.toNat : Int) + s32 w - Config.P
       else (a.toNat : Int) + s32 w) ∧
    canon (fsadd a w) = true ∧
    ((fsadd a w).toNat : Int) = ((a.toNat : Int) + s32 w) % Config.P

/-- R84: the formula, its bounds, its residue, and the document's formula at k = 8. -/
def Obligations.Fmul2kMultipliesByTwoToMinusK : Prop :=
  (∀ (a : Word) (k : Nat), canon a = true → 1 ≤ k → k ≤ 24 →
    a.toNat >>> k < 2 ^ (31 - k) ∧
    a.toNat &&& (2 ^ k - 1) < 2 ^ k ∧
    s32 (fmul2k a k) = (a.toNat >>> k : Nat) - (((127 * (a.toNat &&& (2 ^ k - 1))) <<< (24 - k) : Nat) : Int) ∧
    srange (fmul2k a k) = true ∧
    (2 ^ k * s32 (fmul2k a k)) % (Config.P : Int) = a.toNat) ∧
  (∀ a : Word, canon a = true →
    s32 (fmul2k a 8) = (a.toNat >>> 8 : Nat) - ((Config.r * (a.toNat &&& 0xFF)) <<< 16 : Nat))

/-- R85. -/
def Obligations.Fnmul2kIsTheNegation : Prop :=
  ∀ (a : Word) (k : Nat), canon a = true → 1 ≤ k → k ≤ 24 →
    s32 (fnmul2k a k) = (((127 * (a.toNat &&& (2 ^ k - 1))) <<< (24 - k) : Nat) : Int) - (a.toNat >>> k : Nat) ∧
    s32 (fnmul2k a k) = -s32 (fmul2k a k) ∧
    srange (fnmul2k a k) = true ∧
    (2 ^ k * s32 (fnmul2k a k)) % (Config.P : Int) = -(a.toNat : Int) % Config.P

/-! ## The diagonal tables (41_diagonal_layer.md) -/

/-- R100 and R101: entry, residue, kind and group of every processed position of both tables, and which positions are not processed. -/
def Obligations.DiagonalTablesAreAsPrinted : Prop :=
  (∀ (w : Width) (i : Nat), (i = 0 ∨ w.positions ≤ i) → row w i = none) ∧
  entry0.residue = 2130706431 ∧
  (List.range 15).map (fun i => (row .w16 (i + 1)).map fun r => (r.entry.num, r.entry.exp, r.entry.residue, r.kind, r.group)) =
    [ some (1, 0, 1, .one, .add),
      some (2, 0, 2, .dbl, .add),
      some (1, 1, 1065353217, .half, .add),
      some (3, 0, 3, .tri, .add),
      some (4, 0, 4, .quad, .add),
      some (-1, 1, 1065353216, .half, .sub),
      some (-3, 0, 2130706430, .tri, .sub),
      some (-4, 0, 2130706429, .quad, .sub),
      some (1, 8, 2122383361, .p2k 8, .sadd),
      some (-1, 8, 8323072, .n2k 8, .sadd),
      some (1, 3, 1864368129, .p2k 3, .sadd),
      some (-1, 3, 266338304, .n2k 3, .sadd),
      some (-1, 4, 133169152, .n2k 4, .sadd),
      some (1, 24, 2130706306, .p2k 24, .sadd),
      some (-1, 24, 127, .n2k 24, .sadd) ] ∧
  (List.range 10).map (fun i => row .w24 (i + 1)) = (List.range 10).map (fun i => row .w16 (i + 1)) ∧
  (List.range 13).map (fun i => (row .w24 (i + 11)).map fun r => (r.entry.num, r.entry.exp, r.entry.residue, r.kind, r.group)) =
    [ some (1, 2, 1598029825, .p2k 2, .sadd),
      some (1, 3, 1864368129, .p2k 3, .sadd),
      some (-1, 3, 266338304, .n2k 3, .sadd),
      some (1, 4, 1997537281, .p2k 4, .sadd),
      some (-1, 4, 133169152, .n2k 4, .sadd),
      some (1, 5, 2064121857, .p2k 5, .sadd),
      some (-1, 5, 66584576, .n2k 5, .sadd),
      some (1, 6, 2097414145, .p2k 6, .sadd),
      some (-1, 6, 33292288, .n2k 6, .sadd),
      some (-1, 7, 16646144, .n2k 7, .sadd),
      some (-1, 9, 4161536, .n2k 9, .sadd),
      some (1, 24, 2130706306, .p2k 24, .sadd),
      some (-1, 24, 127, .n2k 24, .sadd) ]

/-- R103: what each kind gives, its range and its value modulo P. -/
def Obligations.KindsRealiseTheirEntries : Prop :=
  ∀ x : Word, canon x = true →
    dk .one x = x ∧
    (dk .dbl x = fadd x x ∧ canon (dk .dbl x) = true ∧ (dk .dbl x).toNat = 2 * x.toNat % Config.P) ∧
    (dk .half x = fhalve x ∧ canon (dk .half x) = true ∧ 2 * (dk .half x).toNat % Config.P = x.toNat) ∧
    (dk .tri x = fadd (fadd x x) x ∧ canon (dk .tri x) = true ∧ (dk .tri x).toNat = 3 * x.toNat % Config.P) ∧
    (dk .quad x = fadd (fadd x x) (fadd x x) ∧ canon (dk .quad x) = true ∧ (dk .quad x).toNat = 4 * x.toNat % Config.P) ∧
    (∀ k : Nat, 2 ≤ k → k ≤ 24 →
      (dk (.p2k k) x = fmul2k x k ∧ srange (dk (.p2k k) x) = true ∧
        (2 ^ k * s32 (dk (.p2k k) x)) % (Config.P : Int) = x.toNat) ∧
      (dk (.n2k k) x = fnmul2k x k ∧ srange (dk (.n2k k) x) = true ∧
        (2 ^ k * s32 (dk (.n2k k) x)) % (Config.P : Int) = -(x.toNat : Int) % Config.P))

/-- R105: what each group computes and requires, and which positions it covers in both widths. -/
def Obligations.GroupsFoldTheSumIn : Prop :=
  (∀ s y : Word, canon s = true →
    (canon y = true →
      ag .add s y = fadd s y ∧ canon (ag .add s y) = true ∧ (ag .add s y).toNat = (s.toNat + y.toNat) % Config.P) ∧
    (canon y = true →
      ag .sub s y = fsub s y ∧ canon (ag .sub s y) = true ∧ ((ag .sub s y).toNat : Int) = ((s.toNat : Int) - y.toNat) % Config.P) ∧
    (srange y = true →
      ag .sadd s y = fsadd s y ∧ canon (ag .sadd s y) = true ∧ ((ag .sadd s y).toNat : Int) = ((s.toNat : Int) + s32 y) % Config.P)) ∧
  (∀ y : Word, (Group.range .add y = canon y) ∧ (Group.range .sub y = canon y) ∧ (Group.range .sadd y = srange y)) ∧
  (∀ (w : Width) (i : Nat), 1 ≤ i → i < w.positions →
    (row w i).map (·.group) = some (if i ≤ 5 then .add else if i ≤ 8 then .sub else .sadd))

/-! ## The lane primitive instructions (R86 to R91). Each says where the instruction completes, what it then leaves, and what an operand
outside its range does instead. What the model does with a term that no word decodes to is IllFormedTermsRaiseIllegalInstruction. -/

/-- R86, VADD. -/
def Obligations.VaddAddsLanesInTheField : Prop :=
  (∀ (vd va vb : VReg) (s : State),
    bits (encode (.vadd vd va vb)) 31 26 = 0x01 ∧
    ((∀ l : Fin 8, canon s.v[va][l] = true ∧ canon s.v[vb][l] = true) →
      ∃ t, exec (.vadd vd va vb) s = .next t ∧
        (∀ l : Fin 8, t.v[vd][l] = fadd s.v[va][l] s.v[vb][l] ∧
          t.v[vd][l].toNat = (s.v[va][l].toNat + s.v[vb][l].toNat) % Config.P) ∧
        (∀ n : VReg, n ≠ vd → t.v[n] = s.v[n]) ∧
        t = { s with v := t.v, pc := s.pc + 1 }) ∧
    ((∃ l : Fin 8, canon s.v[va][l] = false ∨ canon s.v[vb][l] = false) →
      exec (.vadd vd va vb) s = .next { s with cause := some .operandRange, runState := .fault })) ∧
  (∀ a b : Word, a.toNat + b.toNat = Config.P → (fadd a b).toNat = 0) ∧
  (fadd 2130706432#32 2130706432#32).toNat = Config.P - 2 ∧
  fadd 2130706432#32 1#32 = 0#32

/-- R87, VSUB. -/
def Obligations.VsubSubtractsLanesInTheField : Prop :=
  (∀ (vd va vb : VReg) (s : State),
    bits (encode (.vsub vd va vb)) 31 26 = 0x02 ∧
    ((∀ l : Fin 8, canon s.v[va][l] = true ∧ canon s.v[vb][l] = true) →
      ∃ t, exec (.vsub vd va vb) s = .next t ∧
        (∀ l : Fin 8, t.v[vd][l] = fsub s.v[va][l] s.v[vb][l] ∧
          (t.v[vd][l].toNat : Int) = ((s.v[va][l].toNat : Int) - s.v[vb][l].toNat) % Config.P) ∧
        (va = vb → ∀ l : Fin 8, t.v[vd][l] = 0#32) ∧
        (∀ n : VReg, n ≠ vd → t.v[n] = s.v[n]) ∧
        t = { s with v := t.v, pc := s.pc + 1 }) ∧
    ((∃ l : Fin 8, canon s.v[va][l] = false ∨ canon s.v[vb][l] = false) →
      exec (.vsub vd va vb) s = .next { s with cause := some .operandRange, runState := .fault })) ∧
  (∀ a : Word, fsub a a = 0#32) ∧
  (fsub 0#32 1#32).toNat = Config.P - 1 ∧
  fsub 3#32 7#32 = 2130706429#32

/-- R88, VSADD. -/
def Obligations.VsaddAddsSignedLanes : Prop :=
  (∀ (vd va vb : VReg) (s : State),
    bits (encode (.vsadd vd va vb)) 31 26 = 0x03 ∧
    ((∀ l : Fin 8, canon s.v[va][l] = true ∧ srange s.v[vb][l] = true) →
      ∃ t, exec (.vsadd vd va vb) s = .next t ∧
        (∀ l : Fin 8, t.v[vd][l] = fsadd s.v[va][l] s.v[vb][l] ∧
          (t.v[vd][l].toNat : Int) = ((s.v[va][l].toNat : Int) + s32 s.v[vb][l]) % Config.P) ∧
        ((∀ l : Fin 8, canon s.v[vb][l] = true) → exec (.vsadd vd va vb) s = exec (.vadd vd va vb) s) ∧
        (∀ n : VReg, n ≠ vd → t.v[n] = s.v[n]) ∧
        t = { s with v := t.v, pc := s.pc + 1 }) ∧
    ((∃ l : Fin 8, canon s.v[va][l] = false ∨ srange s.v[vb][l] = false) →
      exec (.vsadd vd va vb) s = .next { s with cause := some .operandRange, runState := .fault })) ∧
  (∀ a w : Word, canon a = true → srange w = true → (a.toNat : Int) + s32 w = -1 → (fsadd a w).toNat = Config.P - 1) ∧
  (∀ a w : Word, canon a = true → srange w = true → (a.toNat : Int) + s32 w = Config.P → (fsadd a w).toNat = 0) ∧
  (∀ w : Word, s32 w = -((Config.P : Int) - 1) → (fsadd 0#32 w).toNat = 1) ∧
  (fsadd 2130706432#32 2130706432#32).toNat = Config.P - 2 ∧
  (∀ w : Word, 0x7F000001 ≤ w.toNat → w.toNat ≤ 0x80FFFFFF → srange w = false) ∧
  fsadd 100#32 0xFF810000#32 = 2122383461#32

/-- R89, VHALVE. -/
def Obligations.VhalveHalvesLanesInTheField : Prop :=
  (∀ (vd va : VReg) (s : State),
    bits (encode (.vhalve vd va)) 31 26 = 0x04 ∧
    ((∀ l : Fin 8, canon s.v[va][l] = true) →
      ∃ t, exec (.vhalve vd va) s = .next t ∧
        (∀ l : Fin 8, t.v[vd][l] = fhalve s.v[va][l] ∧ canon t.v[vd][l] = true ∧
          2 * t.v[vd][l].toNat % Config.P = s.v[va][l].toNat) ∧
        (∀ n : VReg, n ≠ vd → t.v[n] = s.v[n]) ∧
        t = { s with v := t.v, pc := s.pc + 1 }) ∧
    ((∃ l : Fin 8, canon s.v[va][l] = false) →
      exec (.vhalve vd va) s = .next { s with cause := some .operandRange, runState := .fault })) ∧
  fhalve 0#32 = 0#32 ∧ fhalve 1#32 = 1065353217#32 ∧ fhalve 2130706432#32 = 1065353216#32 ∧
  fhalve 2130706431#32 = 2130706432#32 ∧ fhalve 3#32 = 1065353218#32

/-- R90, VMUL2K; the clause on words with another `k` is R70's. -/
def Obligations.Vmul2kMultipliesLanesByTwoToMinusK : Prop :=
  (∀ (vd va : VReg) (k : Nat) (s : State), 1 ≤ k → k ≤ 24 →
    bits (encode (.vmul2k vd va k)) 31 26 = 0x05 ∧ bits (encode (.vmul2k vd va k)) 5 5 = 0 ∧
    ((∀ l : Fin 8, canon s.v[va][l] = true) →
      ∃ t, exec (.vmul2k vd va k) s = .next t ∧
        (∀ l : Fin 8, t.v[vd][l] = fmul2k s.v[va][l] k ∧ srange t.v[vd][l] = true ∧
          (2 ^ k * s32 t.v[vd][l]) % (Config.P : Int) = s.v[va][l].toNat) ∧
        (∀ n : VReg, n ≠ vd → t.v[n] = s.v[n]) ∧
        t = { s with v := t.v, pc := s.pc + 1 }) ∧
    ((∃ l : Fin 8, canon s.v[va][l] = false) →
      exec (.vmul2k vd va k) s = .next { s with cause := some .operandRange, runState := .fault })) ∧
  (∀ w : Word, bits w 31 26 = 0x05 → bits w 5 5 = 0 → bits w 4 0 = 0 ∨ 24 < bits w 4 0 → ∃ reason, decode w = .error reason) ∧
  (∀ (a : Word) (k q : Nat), canon a = true → 1 ≤ k → k ≤ 24 → a.toNat = q * 2 ^ k → (fmul2k a k).toNat = q) ∧
  (∀ k : Nat, 1 ≤ k → k ≤ 24 → s32 (fmul2k 1#32 k) = -((127 * 2 ^ (24 - k) : Nat) : Int)) ∧
  fmul2k 2130706432#32 24 = 127#32 ∧ fmul2k 16777215#32 24 = 0x8100007F#32 ∧
  (∀ (a : Word) (k : Nat), canon a = true → 1 ≤ k → k ≤ 24 → -2130706305 ≤ s32 (fmul2k a k)) ∧
  fmul2k 0x12345678#32 8 = 0xC48A3456#32

/-- R91, VNMUL2K; the clause on words with another `k` is R70's. -/
def Obligations.Vnmul2kMultipliesLanesByMinusTwoToMinusK : Prop :=
  (∀ (vd va : VReg) (k : Nat) (s : State), 1 ≤ k → k ≤ 24 →
    bits (encode (.vnmul2k vd va k)) 31 26 = 0x05 ∧ bits (encode (.vnmul2k vd va k)) 5 5 = 1 ∧
    ((∀ l : Fin 8, canon s.v[va][l] = true) →
      ∃ t, exec (.vnmul2k vd va k) s = .next t ∧
        (∀ l : Fin 8, t.v[vd][l] = fnmul2k s.v[va][l] k ∧ srange t.v[vd][l] = true ∧
          (2 ^ k * s32 t.v[vd][l]) % (Config.P : Int) = -(s.v[va][l].toNat : Int) % Config.P) ∧
        (∀ n : VReg, n ≠ vd → t.v[n] = s.v[n]) ∧
        t = { s with v := t.v, pc := s.pc + 1 }) ∧
    ((∃ l : Fin 8, canon s.v[va][l] = false) →
      exec (.vnmul2k vd va k) s = .next { s with cause := some .operandRange, runState := .fault })) ∧
  (∀ w : Word, bits w 31 26 = 0x05 → bits w 5 5 = 1 → bits w 4 0 = 0 ∨ 24 < bits w 4 0 → ∃ reason, decode w = .error reason) ∧
  (∀ (a : Word) (k q : Nat), canon a = true → 1 ≤ k → k ≤ 24 → a.toNat = q * 2 ^ k → fnmul2k a k = u32 (-(q : Int))) ∧
  fnmul2k 256#32 8 = 0xFFFFFFFF#32 ∧
  (∀ k : Nat, 1 ≤ k → k ≤ 24 → fnmul2k 0#32 k = 0#32) ∧
  fnmul2k 16777215#32 24 = 0x7EFFFF81#32 ∧
  fnmul2k 1#32 8 = 0x007F0000#32

/-! ## The macro instructions (R106, R107, R110, R111, R114, R115) -/

/-- R106, DMUL.16. -/
def Obligations.Dmul16MultipliesByTheDiagonal : Prop :=
  encode .dmul16 = 0x20000000#32 ∧
  (∀ s : State,
    ((∀ n : VReg, 1 ≤ n.val → n.val ≤ 15 → ∀ l : Fin 8, canon s.v[n][l] = true) →
      ∃ t, exec .dmul16 s = .next t ∧
        (∀ n : VReg, 1 ≤ n.val → n.val ≤ 15 → ∃ kind, (kindColumn .w16)[n.val - 1]? = some kind ∧
          ∀ l : Fin 8, t.v[n][l] = dk kind s.v[n][l] ∧ srange t.v[n][l] = true ∧ (n.val ≤ 8 → canon t.v[n][l] = true) ∧
            (s.v[n][l] = 0#32 → t.v[n][l] = 0#32)) ∧
        (∀ n : VReg, n.val = 0 ∨ 16 ≤ n.val → t.v[n] = s.v[n]) ∧
        t = { s with v := t.v, pc := s.pc + 1 }) ∧
    ((∃ n : VReg, 1 ≤ n.val ∧ n.val ≤ 15 ∧ ∃ l : Fin 8, canon s.v[n][l] = false) →
      exec .dmul16 s = .next { s with cause := some .operandRange, runState := .fault })) ∧
  dk (.p2k 8) 1#32 = 0xFF810000#32 ∧ dk (.n2k 8) 1#32 = 0x007F0000#32 ∧ dk .tri 5#32 = 15#32

/-- R107, DMUL.24. -/
def Obligations.Dmul24MultipliesByTheDiagonal : Prop :=
  encode .dmul24 = 0x20000001#32 ∧
  (∀ s : State,
    ((∀ n : VReg, 1 ≤ n.val → n.val ≤ 23 → ∀ l : Fin 8, canon s.v[n][l] = true) →
      ∃ t, exec .dmul24 s = .next t ∧
        (∀ n : VReg, 1 ≤ n.val → n.val ≤ 23 → ∃ kind, (kindColumn .w24)[n.val - 1]? = some kind ∧
          ∀ l : Fin 8, t.v[n][l] = dk kind s.v[n][l] ∧ srange t.v[n][l] = true ∧ (n.val ≤ 8 → canon t.v[n][l] = true) ∧
            (s.v[n][l] = 0#32 → t.v[n][l] = 0#32)) ∧
        (∀ n : VReg, n.val = 0 ∨ 24 ≤ n.val → t.v[n] = s.v[n]) ∧
        t = { s with v := t.v, pc := s.pc + 1 }) ∧
    ((∃ n : VReg, 1 ≤ n.val ∧ n.val ≤ 23 ∧ ∃ l : Fin 8, canon s.v[n][l] = false) →
      exec .dmul24 s = .next { s with cause := some .operandRange, runState := .fault })) ∧
  dk (.p2k 2) 1#32 = 0xE0400000#32 ∧ dk (.p2k 24) 16777216#32 = 1#32

/-- R110, ASUM.16; the clause on words with a smaller `vs` is R70's. -/
def Obligations.Asum16FoldsTheSumIn : Prop :=
  (∀ (vs : VReg) (s : State), 16 ≤ vs.val →
    bits (encode (.asum16 vs)) 31 26 = 0x09 ∧ bits (encode (.asum16 vs)) 0 0 = 0 ∧
    ((∀ l : Fin 8, canon s.v[vs][l] = true) →
     (∀ n : VReg, 1 ≤ n.val → n.val ≤ 8 → ∀ l : Fin 8, canon s.v[n][l] = true) →
     (∀ n : VReg, 9 ≤ n.val → n.val ≤ 15 → ∀ l : Fin 8, srange s.v[n][l] = true) →
      ∃ t, exec (.asum16 vs) s = .next t ∧
        (∀ n : VReg, 1 ≤ n.val → n.val ≤ 5 → ∀ l : Fin 8, t.v[n][l] = fadd s.v[vs][l] s.v[n][l]) ∧
        (∀ n : VReg, 6 ≤ n.val → n.val ≤ 8 → ∀ l : Fin 8, t.v[n][l] = fsub s.v[vs][l] s.v[n][l]) ∧
        (∀ n : VReg, 9 ≤ n.val → n.val ≤ 15 → ∀ l : Fin 8, t.v[n][l] = fsadd s.v[vs][l] s.v[n][l]) ∧
        (∀ n : VReg, 1 ≤ n.val → n.val ≤ 15 → ∀ l : Fin 8, canon t.v[n][l] = true ∧
          (s.v[vs][l] = 0#32 → n.val ≤ 5 → t.v[n][l] = s.v[n][l]) ∧
          (s.v[vs][l] = 0#32 → 6 ≤ n.val → n.val ≤ 8 → t.v[n][l] = fsub 0#32 s.v[n][l]) ∧
          (s.v[vs][l] = 0#32 → 9 ≤ n.val → (t.v[n][l].toNat : Int) = s32 s.v[n][l] % Config.P)) ∧
        (∀ n : VReg, n.val = 0 ∨ 16 ≤ n.val → t.v[n] = s.v[n]) ∧
        t = { s with v := t.v, pc := s.pc + 1 }) ∧
    ((∃ l : Fin 8, canon s.v[vs][l] = false) ∨
     (∃ n : VReg, 1 ≤ n.val ∧ n.val ≤ 8 ∧ ∃ l : Fin 8, canon s.v[n][l] = false) ∨
     (∃ n : VReg, 9 ≤ n.val ∧ n.val ≤ 15 ∧ ∃ l : Fin 8, srange s.v[n][l] = false) →
      exec (.asum16 vs) s = .next { s with cause := some .operandRange, runState := .fault })) ∧
  (∀ w : Word, bits w 31 26 = 0x09 → bits w 0 0 = 0 → bits w 15 11 < 16 → ∃ reason, decode w = .error reason) ∧
  srange 0x80FFFFFF#32 = false ∧
  fsadd 100#32 0xFF810000#32 = 2122383461#32 ∧ fsub 100#32 15#32 = 85#32 ∧ fadd 100#32 6#32 = 106#32

/-- R111, ASUM.24; the clause on words with a smaller `vs` is R70's. -/
def Obligations.Asum24FoldsTheSumIn : Prop :=
  (∀ (vs : VReg) (s : State), 24 ≤ vs.val →
    bits (encode (.asum24 vs)) 31 26 = 0x09 ∧ bits (encode (.asum24 vs)) 0 0 = 1 ∧
    ((∀ l : Fin 8, canon s.v[vs][l] = true) →
     (∀ n : VReg, 1 ≤ n.val → n.val ≤ 8 → ∀ l : Fin 8, canon s.v[n][l] = true) →
     (∀ n : VReg, 9 ≤ n.val → n.val ≤ 23 → ∀ l : Fin 8, srange s.v[n][l] = true) →
      ∃ t, exec (.asum24 vs) s = .next t ∧
        (∀ n : VReg, 1 ≤ n.val → n.val ≤ 5 → ∀ l : Fin 8, t.v[n][l] = fadd s.v[vs][l] s.v[n][l]) ∧
        (∀ n : VReg, 6 ≤ n.val → n.val ≤ 8 → ∀ l : Fin 8, t.v[n][l] = fsub s.v[vs][l] s.v[n][l]) ∧
        (∀ n : VReg, 9 ≤ n.val → n.val ≤ 23 → ∀ l : Fin 8, t.v[n][l] = fsadd s.v[vs][l] s.v[n][l]) ∧
        (∀ n : VReg, 1 ≤ n.val → n.val ≤ 23 → ∀ l : Fin 8, canon t.v[n][l] = true) ∧
        (∀ n : VReg, n.val = 0 ∨ 24 ≤ n.val → t.v[n] = s.v[n]) ∧
        t = { s with v := t.v, pc := s.pc + 1 }) ∧
    ((∃ l : Fin 8, canon s.v[vs][l] = false) ∨
     (∃ n : VReg, 1 ≤ n.val ∧ n.val ≤ 8 ∧ ∃ l : Fin 8, canon s.v[n][l] = false) ∨
     (∃ n : VReg, 9 ≤ n.val ∧ n.val ≤ 23 ∧ ∃ l : Fin 8, srange s.v[n][l] = false) →
      exec (.asum24 vs) s = .next { s with cause := some .operandRange, runState := .fault })) ∧
  (∀ w : Word, bits w 31 26 = 0x09 → bits w 0 0 = 1 → bits w 15 11 < 24 → ∃ reason, decode w = .error reason) ∧
  fsadd 7#32 0xE0400000#32 = 1598029832#32

/-- R114, DLIN.16, with its differences from the pair DMUL.16, ASUM.16; the clause on words with a smaller `vs` is R70's. -/
def Obligations.Dlin16ComputesTheLayer : Prop :=
  (∀ (vs : VReg) (s : State), 16 ≤ vs.val →
    bits (encode (.dlin16 vs)) 31 26 = 0x0A ∧ bits (encode (.dlin16 vs)) 0 0 = 0 ∧
    ((∀ l : Fin 8, canon s.v[vs][l] = true) →
     (∀ n : VReg, 1 ≤ n.val → n.val ≤ 15 → ∀ l : Fin 8, canon s.v[n][l] = true) →
      ∃ t, exec (.dlin16 vs) s = .next t ∧
        (∀ n : VReg, 1 ≤ n.val → n.val ≤ 15 → ∃ kind, (kindColumn .w16)[n.val - 1]? = some kind ∧
          ∀ l : Fin 8, t.v[n][l] = ag (groupAt n.val) s.v[vs][l] (dk kind s.v[n][l]) ∧
            t.v[n][l].toNat = layerOut .w16 n.val s.v[vs][l].toNat s.v[n][l].toNat) ∧
        (∀ n : VReg, n.val = 0 ∨ 16 ≤ n.val → t.v[n] = s.v[n]) ∧
        t = { s with v := t.v, pc := s.pc + 1 }) ∧
    ((∃ l : Fin 8, canon s.v[vs][l] = false) ∨
     (∃ n : VReg, 1 ≤ n.val ∧ n.val ≤ 15 ∧ ∃ l : Fin 8, canon s.v[n][l] = false) →
      exec (.dlin16 vs) s = .next { s with cause := some .operandRange, runState := .fault })) ∧
  (∀ (vs : VReg) (s : State), 16 ≤ vs.val → s.canonRegs 1 15 → s.dlinIsThePair .w16 vs) ∧
  (∀ w : Word, bits w 31 26 = 0x0A → bits w 0 0 = 0 → bits w 15 11 < 16 → ∃ reason, decode w = .error reason) ∧
  layerOut .w16 9 100 1 = 2122383461 ∧ layerOut .w16 7 100 5 = 85 ∧ layerOut .w16 2 100 3 = 106

/-- R115, DLIN.24, with R114's remarks on the pair; the clause on words with a smaller `vs` is R70's. -/
def Obligations.Dlin24ComputesTheLayer : Prop :=
  (∀ (vs : VReg) (s : State), 24 ≤ vs.val →
    bits (encode (.dlin24 vs)) 31 26 = 0x0A ∧ bits (encode (.dlin24 vs)) 0 0 = 1 ∧
    ((∀ l : Fin 8, canon s.v[vs][l] = true) →
     (∀ n : VReg, 1 ≤ n.val → n.val ≤ 23 → ∀ l : Fin 8, canon s.v[n][l] = true) →
      ∃ t, exec (.dlin24 vs) s = .next t ∧
        (∀ n : VReg, 1 ≤ n.val → n.val ≤ 23 → ∃ kind, (kindColumn .w24)[n.val - 1]? = some kind ∧
          ∀ l : Fin 8, t.v[n][l] = ag (groupAt n.val) s.v[vs][l] (dk kind s.v[n][l]) ∧
            t.v[n][l].toNat = layerOut .w24 n.val s.v[vs][l].toNat s.v[n][l].toNat) ∧
        (∀ n : VReg, n.val = 0 ∨ 24 ≤ n.val → t.v[n] = s.v[n]) ∧
        t = { s with v := t.v, pc := s.pc + 1 }) ∧
    ((∃ l : Fin 8, canon s.v[vs][l] = false) ∨
     (∃ n : VReg, 1 ≤ n.val ∧ n.val ≤ 23 ∧ ∃ l : Fin 8, canon s.v[n][l] = false) →
      exec (.dlin24 vs) s = .next { s with cause := some .operandRange, runState := .fault })) ∧
  (∀ (vs : VReg) (s : State), 24 ≤ vs.val → s.canonRegs 1 23 → s.dlinIsThePair .w24 vs) ∧
  (∀ w : Word, bits w 31 26 = 0x0A → bits w 0 0 = 1 → bits w 15 11 < 24 → ∃ reason, decode w = .error reason) ∧
  layerOut .w24 11 7 1 = 1598029832

/-- The model's choice (assumption 7, DEDUCED), for terms that no word decodes to: executing a term with a shift count outside 1 to 24 or a
sum register inside the state raises IllegalInstruction and reads no register. -/
def Obligations.IllFormedTermsRaiseIllegalInstruction : Prop :=
  (∀ (vd va : VReg) (k : Nat) (s : State), k = 0 ∨ 24 < k →
    exec (.vmul2k vd va k) s = .next { s with cause := some .illegalInstruction, runState := .fault } ∧
    exec (.vnmul2k vd va k) s = .next { s with cause := some .illegalInstruction, runState := .fault }) ∧
  (∀ (vs : VReg) (s : State), vs.val < 16 →
    exec (.asum16 vs) s = .next { s with cause := some .illegalInstruction, runState := .fault } ∧
    exec (.dlin16 vs) s = .next { s with cause := some .illegalInstruction, runState := .fault }) ∧
  (∀ (vs : VReg) (s : State), vs.val < 24 →
    exec (.asum24 vs) s = .next { s with cause := some .illegalInstruction, runState := .fault } ∧
    exec (.dlin24 vs) s = .next { s with cause := some .illegalInstruction, runState := .fault }) ∧
  (∀ (w : Word) (i : Instr), decode w = .ok i → i.wellFormed = true)

/-- R113: DMUL followed by ASUM is the diagonal layer, whatever other registers change in between. -/
def Obligations.DmulThenAsumIsTheDiagonalLayer : Prop :=
  ∀ (w : Width) (vs : VReg) (s : State), w.positions ≤ vs.val →
    (∀ n : VReg, 1 ≤ n.val → n.val < w.positions → ∀ l : Fin 8, canon s.v[n][l] = true) →
    (∀ l : Fin 8, canon s.v[vs][l] = true) →
    ∃ t, exec (dmulOf w) s = .next t ∧ t.cause = s.cause ∧ t.runState = s.runState ∧
      ∀ t' : State,
        (∀ n : VReg, 1 ≤ n.val → n.val < w.positions → t'.v[n] = t.v[n]) → t'.v[vs] = t.v[vs] →
        ∃ u, exec (asumOf w vs) t' = .next u ∧ u.cause = t'.cause ∧ u.runState = t'.runState ∧
          ∀ n : VReg, 1 ≤ n.val → n.val < w.positions → ∀ l : Fin 8, canon u.v[n][l] = true ∧
            u.v[n][l].toNat = (s.v[vs][l].toNat + (residueColumn w).getD n.val 0 * s.v[n][l].toNat) % Config.P

/-- R118: a macro instruction leaves the registers its sequence of lane primitives leaves, when no fault occurs; the scratch register lies
outside the state. -/
def Obligations.MacroEqualsItsPrimitiveSequence : Prop :=
  (∀ (w : Width) (vt : VReg) (s : State), w.positions ≤ vt.val → s.runState = .run → operandsInRange (dmulOf w) s = true →
    ∃ t u, exec (dmulOf w) s = .next t ∧ execSeq (dmulSequence w vt) s = .next u ∧ u.runState = .run ∧
      ∀ n : VReg, n ≠ vt → u.v[n] = t.v[n]) ∧
  (∀ (w : Width) (vs : VReg) (s : State), w.positions ≤ vs.val → s.runState = .run → operandsInRange (asumOf w vs) s = true →
    ∃ t u, exec (asumOf w vs) s = .next t ∧ execSeq (asumSequence w vs) s = .next u ∧ u.runState = .run ∧ u.v = t.v)

/-- R132, HALT: a running unit that fetches it stops at its index; a START at a HALT runs it again. -/
def Obligations.HaltStopsAtItsIndex : Prop :=
  encode .halt = 0xFC000000#32 ∧
  (∀ s : State, exec .halt s = .next { s with runState := .halted }) ∧
  (∀ s : State, s.inbox = [] → s.runState = .run → s.pc.toNat < 256 → programWord s.pmem s.pc.toNat = some 0xFC000000#32 →
    step s = .next { s with runState := .halted } ∧
    step { s with runState := .halted, inbox := [.access (.write 32 0x800#12 1#32)] } =
      .next { s with replies := s.replies ++ [.accepted] } ∧
    (s.cause = none → statusWord { s with runState := .halted } = 0x02#32))

/-! ## What holds of every instruction -/

/-- R142: an instruction completes exactly when its operands are in the ranges of the table, and raises OperandRange otherwise. -/
def Obligations.OperandRangeExactlyByTheTable : Prop :=
  ∀ (i : Instr) (s : State), i.wellFormed = true →
    (operandsInRange i s = true →
      ∃ t, exec i s = .next t ∧ t.cause = s.cause ∧ t.runState = (if i = .halt then .halted else s.runState)) ∧
    (operandsInRange i s = false → exec i s = .next { s with cause := some .operandRange, runState := .fault })

/-- The frame of every instruction: of the registers only those `writesReg` names can change; the program store, the pending events and
the answers given never do; CAUSE changes only where a fault is raised. -/
def Obligations.ExecChangesOnlyItsDestinations : Prop :=
  ∀ (i : Instr) (s t : State), exec i s = .next t →
    (∀ n : VReg, writesReg i n = false → t.v[n] = s.v[n]) ∧
    (∀ a : Nat, t.pmem.read a = s.pmem.read a) ∧ t.pmem = s.pmem ∧ t.inbox = s.inbox ∧ t.replies = s.replies ∧
    (t.cause = s.cause ∨ (t.runState = .fault ∧ t.v = s.v ∧ t.pc = s.pc))

/-- R25: `pc` moves by one on completion, HALT and faults leave it, and it does not wrap. -/
def Obligations.PcAdvancesByOneAndNeverWraps : Prop :=
  (∀ (i : Instr) (s t : State), i.wellFormed = true → exec i s = .next t →
    (operandsInRange i s = true → i ≠ .halt → t.pc = s.pc + 1) ∧
    (i = .halt ∨ operandsInRange i s = false → t.pc = s.pc)) ∧
  (∀ (s : State) (f : UnitFault), (s.raise f).pc = s.pc) ∧
  (∀ (i : Instr) (s t : State), i.wellFormed = true → operandsInRange i s = true → i ≠ .halt → s.runState = .run → s.inbox = [] →
    s.pc.toNat = 255 → exec i s = .next t →
    t.pc.toNat = 256 ∧ step t = .next { t with cause := some .pcOverrun, runState := .fault })

/-- R7: SIMD lane `l` of a result depends only on SIMD lane `l` of the operands, and in every lane in the same way: two lanes that hold the
same words, in one state or two, hold the same words after the same instruction. -/
def Obligations.SimdLanesAreIndependent : Prop :=
  ∀ (i : Instr) (l l' : Fin 8) (s s' t t' : State), i.wellFormed = true →
    operandsInRange i s = true → operandsInRange i s' = true →
    (∀ n : VReg, s.v[n][l] = s'.v[n][l']) → exec i s = .next t → exec i s' = .next t' →
    ∀ n : VReg, t.v[n][l] = t'.v[n][l']

/-- Macro instructions neither read nor write a register outside the state and their sum (R21, R23, R104): changing one, `v0` among them,
changes nothing else of the outcome. -/
def Obligations.MacrosIgnoreOtherRegisters : Prop :=
  ∀ (i : Instr) (n : VReg) (x : LaneVec) (s t : State), macroReads i n = false → exec i s = .next t →
    exec i (s.writeV n x) = .next (t.writeV n x)

/-! ## Steps and faults (42_sequencing.md, 60_exceptions.md) -/

/-- A running unit with nothing else pending runs the instruction its program word decodes to. -/
def Obligations.StepRunsTheDecodedInstruction : Prop :=
  ∀ (s : State) (w : Word) (i : Instr), s.runState = .run → s.nextEvent = .unitStep → s.pc.toNat < 256 →
    programWord s.pmem s.pc.toNat = some w → decode w = .ok i → step s = exec i s.taken

/-- An instruction placed by withFetchWord is what the next step runs. -/
def Obligations.PlacedWordIsTheNextInstruction : Prop :=
  ∀ (s : State) (w : Nat) (i : Instr), w < 2 ^ 32 → decodeTableWord 32 w = some i →
    step (s.withFetchWord 32 w) = exec i (s.withFetchWord 32 w)

/-- R145: one step raises at most one fault, PcOverrun before IllegalInstruction before OperandRange. -/
def Obligations.FaultsAreTestedInOrder : Prop :=
  ∀ s : State, s.inbox = [] → s.runState = .run →
    (s.pc.toNat = 256 → step s = .next { s with cause := some .pcOverrun, runState := .fault }) ∧
    (∀ w, s.pc.toNat < 256 → programWord s.pmem s.pc.toNat = some w →
      ((∃ reason, decode w = .error reason) → ∀ regs : RegFile,
        step { s with v := regs } = .next { s with v := regs, cause := some .illegalInstruction, runState := .fault }) ∧
      (∀ i, decode w = .ok i →
        (operandsInRange i s = false → step s = .next { s with cause := some .operandRange, runState := .fault }) ∧
        (operandsInRange i s = true → ∃ t, step s = .next t ∧ t.runState ≠ .fault ∧ t.cause = s.cause)))

/-- R146: a step of the sequencer that raises a fault changes CAUSE and STATE and nothing else. -/
def Obligations.RaisingAFaultRecordsItAndNothingElse : Prop :=
  (∀ (f : UnitFault) (s : State), s.raise f = { s with cause := some f, runState := .fault } ∧
    causeCode (s.raise f).cause = (match f with | .illegalInstruction => 1 | .operandRange => 2 | .pcOverrun => 3) ∧
    (s.raise f).faultOut = true) ∧
  (∀ s t : State, s.runState = .run → s.nextEvent = .unitStep → step s = .next t → t.runState = .fault →
    ∃ f, t = { s.taken with cause := some f, runState := .fault })

/-- R148: in FAULT, whatever happens next other than a reset leaves the unit as it is; writes to registers, program words and PC are refused,
START is ignored. -/
def Obligations.OnlyAResetLeavesFault : Prop :=
  ∀ s t : State, s.runState = .fault → step s = .next t →
    (s.nextEvent.isReset = false →
      t.runState = .fault ∧ t.cause = s.cause ∧ t.pc = s.pc ∧ t.v = s.v ∧ t.pmem = s.pmem) ∧
    (s.nextEvent.isReset = true → t.runState = .idle ∧ t.cause = none) ∧
    (∀ (offset : BitVec 12) (w : Word), s.nextEvent = .access (.write 32 offset w) →
      offset.toNat < 0x800 ∨ offset.toNat = 0x808 → t.replies = s.replies ++ [.refused]) ∧
    (s.nextEvent.isStart = true → t = { s.taken with replies := s.replies ++ [.accepted] })

/-- R35: the complete set of transitions of STATE. That the sequencer takes no step outside RUN is said as: its turn leaves the unit as it is
(assumption 6). -/
def Obligations.StateTransitionsAreTheListedOnes : Prop :=
  ∀ s t : State, step s = .next t →
    (s.nextEvent.isReset = true → t.runState = .idle) ∧
    (s.nextEvent.isStart = true → t.runState = (if s.runState = .idle ∨ s.runState = .halted then .run else s.runState)) ∧
    (s.nextEvent.isReset = false → s.nextEvent.isStart = false → s.nextEvent ≠ .unitStep → t.runState = s.runState) ∧
    (s.nextEvent = .unitStep → s.runState ≠ .run → t = s.taken) ∧
    (s.nextEvent = .unitStep → s.runState = .run →
      (t.runState = .halted ∧ t.cause = s.cause ∧ t.pc = s.pc ∧ programWord s.pmem s.pc.toNat = some 0xFC000000#32) ∨
      (t.runState = .fault ∧ t.cause ≠ none ∧
        (s.pc.toNat = 256 ∨ programWord s.pmem s.pc.toNat ≠ some 0xFC000000#32)) ∨
      (t.runState = .run ∧ t.cause = s.cause ∧ t.pc = s.pc + 1 ∧ programWord s.pmem s.pc.toNat ≠ some 0xFC000000#32))

/-- R133, the finite run: a run whose program words are all written leaves RUN after at most 257 steps, well exactly when a HALT completes. -/
def Obligations.EveryRunEndsWithin257Steps : Prop :=
  ∀ s : State, s.Inv → s.inbox = [] → s.runState = .run → s.programWritten →
    ∃ k t, 1 ≤ k ∧ k ≤ 257 - s.pc.toNat ∧ Host.Core.run Sys2Proof.core k s = .next t ∧
      ((t.endedWell = true ∧ programWord s.pmem t.pc.toNat = some 0xFC000000#32) ∨ t.endedBadly = true)

/-! ## Reset and the invariant (10_state.md, 70_reset_and_hazards.md) -/

/-- R36 and R160: what each of the three resets leaves; the registers and the program store keep their words through a reset that is not a
power-on. -/
def Obligations.ResetLeavesTheListedValues : Prop :=
  ∀ (s : State) (e : Event), s.nextEvent = e → e.isReset = true →
    ∃ t, step s = .next t ∧ t.runState = .idle ∧ t.cause = none ∧ t.pc = 0 ∧ t.done = false ∧ t.faultOut = false ∧
      statusWord t = 0 ∧ pcWord t = 0 ∧ t.inbox = s.inbox.tail ∧
      ((∀ regs, e ≠ .powerOn regs) → t.v = s.v ∧ t.pmem = s.pmem)

/-- After power-on the registers hold whatever words the event carries, any of them (R33), and no program word has a value: the model's way
of saying unspecified (assumptions 2 and 3). -/
def Obligations.PowerOnLeavesTheStorageOpen : Prop :=
  ∀ (s : State) (regs : RegFile), s.nextEvent = .powerOn regs →
    ∃ t, step s = .next t ∧ t.v = regs ∧ (∀ a, programWord t.pmem a = none) ∧
      t.runState = .idle ∧ t.cause = none ∧ t.pc = 0

/-- The state after reset meets the invariant. -/
def Obligations.ResetMeetsTheInvariant : Prop :=
  State.reset.Inv ∧ State.reset.runState = .idle ∧ State.reset.cause = none ∧ State.reset.pc = 0

/-- Every step, of the unit, of the host or of the platform, keeps the invariant: from any state that meets it, reachable or not. -/
def Obligations.EveryStepKeepsTheInvariant : Prop :=
  ∀ s t : State, s.Inv → step s = .next t → t.Inv

/-- From a state that meets the invariant the machine stops only at a program word nothing has written. -/
def Obligations.StepsOnlyStopAtUnwrittenWords : Prop :=
  ∀ s : State, s.Inv →
    (∃ t, step s = .next t) ∨
    (step s = .fault .unwrittenProgramWord ∧
      ((s.nextEvent = .unitStep ∧ s.runState = .run ∧ s.pc.toNat < 256 ∧ programWord s.pmem s.pc.toNat = none) ∨
       (∃ offset, s.nextEvent = .access (.read 32 offset) ∧ 0x400 ≤ offset.toNat ∧ offset.toNat < 0x800 ∧
          programWord s.pmem ((offset.toNat - 0x400) / 4) = none)))

/-! ## The host window (20_memory.md; 10_state.md R29 to R32) -/

/-- R47: the refused accesses are exactly the table's, and a refused access changes nothing of the unit and returns no data. What is reported
to the host stands among the replies (assumptions 3, 11). -/
def Obligations.RefusedAccessesAreTheListedOnes : Prop :=
  (∀ (s : State) (width : Nat) (offset : BitVec 12),
    windowRead s width offset = some .refused ↔
      (width ≠ 32 ∨ offset.toNat % 4 ≠ 0) ∨ 0x80C ≤ offset.toNat ∨ offset.toNat = 0x800 ∨
      (offset.toNat < 0x800 ∧ s.runState = .run)) ∧
  (∀ (s : State) (width : Nat) (offset : BitVec 12) (w : Word),
    (windowWrite s width offset w).2 = .refused ↔
      (width ≠ 32 ∨ offset.toNat % 4 ≠ 0) ∨ 0x80C ≤ offset.toNat ∨ offset.toNat = 0x804 ∨
      (offset.toNat < 0x800 ∧ (s.runState = .run ∨ s.runState = .fault)) ∨
      (offset.toNat = 0x808 ∧ (s.runState = .run ∨ s.runState = .fault))) ∧
  (∀ (s : State) (width : Nat) (offset : BitVec 12), s.nextEvent = .access (.read width offset) →
    windowRead s width offset = some .refused → step s = .next { s.taken with replies := s.replies ++ [.refused] }) ∧
  (∀ (s : State) (width : Nat) (offset : BitVec 12) (w : Word), s.nextEvent = .access (.write width offset w) →
    (windowWrite s width offset w).2 = .refused → step s = .next { s.taken with replies := s.replies ++ [.refused] })

/-- R42: the window's view of the vector registers. -/
def Obligations.WindowReachesEveryLane : Prop :=
  ∀ (s : State) (n : VReg) (l : Fin 8) (offset : BitVec 12) (w : Word), offset.toNat = 32 * n.val + 4 * l.val →
    (s.nextEvent = .access (.write 32 offset w) → s.runState = .idle ∨ s.runState = .halted →
      ∃ t, step s = .next t ∧ t.v[n][l] = w ∧
        (∀ (m : VReg) (k : Fin 8), (m, k) ≠ (n, l) → t.v[m][k] = s.v[m][k]) ∧
        t = { s.taken with v := t.v, replies := s.replies ++ [.accepted] }) ∧
    (s.nextEvent = .access (.read 32 offset) → s.runState ≠ .run →
      step s = .next { s.taken with replies := s.replies ++ [.data s.v[n][l]] }) ∧
    (s.nextEvent = .access (.read 32 offset) → s.runState = .run →
      step s = .next { s.taken with replies := s.replies ++ [.refused] }) ∧
    (s.nextEvent = .access (.write 32 offset w) → s.runState = .run ∨ s.runState = .fault →
      step s = .next { s.taken with replies := s.replies ++ [.refused] })

/-- R43: the window's view of the program store, with R45's bytes; and the word written is the word the unit fetches (R53). A word nothing has
written has no value to return (assumption 2): StepsOnlyStopAtUnwrittenWords says what its read does. -/
def Obligations.WindowReachesEveryProgramWord : Prop :=
  ∀ (s : State) (a : Nat) (offset : BitVec 12) (w : Word), a < 256 → offset.toNat = 0x400 + 4 * a →
    (s.nextEvent = .access (.write 32 offset w) → s.runState = .idle ∨ s.runState = .halted →
      ∃ t, step s = .next t ∧ programWord t.pmem a = some w ∧
        t.pmem.read offset.toNat = some (BitVec.ofNat 8 (bits w 7 0)) ∧
        t.pmem.read (offset.toNat + 1) = some (BitVec.ofNat 8 (bits w 15 8)) ∧
        t.pmem.read (offset.toNat + 2) = some (BitVec.ofNat 8 (bits w 23 16)) ∧
        t.pmem.read (offset.toNat + 3) = some (BitVec.ofNat 8 (bits w 31 24)) ∧
        (∀ x, x < offset.toNat ∨ offset.toNat + 4 ≤ x → t.pmem.read x = s.pmem.read x) ∧
        (∀ b, b ≠ a → programWord t.pmem b = programWord s.pmem b) ∧
        (t.pc.toNat = a → fetch t = .word w) ∧
        t = { s.taken with pmem := t.pmem, replies := s.replies ++ [.accepted] }) ∧
    (∀ x, programWord s.pmem a = some x → s.nextEvent = .access (.read 32 offset) → s.runState ≠ .run →
      step s = .next { s.taken with replies := s.replies ++ [.data x] }) ∧
    (s.nextEvent = .access (.read 32 offset) → s.runState = .run →
      step s = .next { s.taken with replies := s.replies ++ [.refused] }) ∧
    (s.nextEvent = .access (.write 32 offset w) → s.runState = .run ∨ s.runState = .fault →
      step s = .next { s.taken with replies := s.replies ++ [.refused] })

/-- R30: a host write to CTRL, in every state. -/
def Obligations.CtrlWriteResetsOrStarts : Prop :=
  ∀ (s : State) (w : Word), s.nextEvent = .access (.write 32 0x800#12 w) →
    (w.getLsbD 1 = true →
      step s = .next { s.taken with runState := .idle, cause := none, pc := 0, replies := s.replies ++ [.accepted] }) ∧
    (w.getLsbD 1 = false → w.getLsbD 0 = true → s.runState = .idle ∨ s.runState = .halted →
      step s = .next { s.taken with runState := .run, replies := s.replies ++ [.accepted] }) ∧
    (w.getLsbD 1 = false → w.getLsbD 0 = false ∨ s.runState = .run ∨ s.runState = .fault →
      step s = .next { s.taken with replies := s.replies ++ [.accepted] })

/-- R31: a host read of STATUS, and the six values it can have. -/
def Obligations.StatusReadsStateAndCause : Prop :=
  ∀ s : State,
    (statusWord s).toNat = s.runState.code + (causeCode s.cause <<< 4) ∧ (statusWord s).toNat ≤ 255 ∧
    (s.nextEvent = .access (.read 32 0x804#12) →
      step s = .next { s.taken with replies := s.replies ++ [.data (statusWord s)] }) ∧
    (s.Inv → statusWord s ∈ [0x00#32, 0x01#32, 0x02#32, 0x13#32, 0x23#32, 0x33#32]) ∧
    (s.Inv → (statusWord s = 0x00#32 ↔ s.runState = .idle) ∧ (statusWord s = 0x01#32 ↔ s.runState = .run) ∧
      (statusWord s = 0x02#32 ↔ s.runState = .halted) ∧
      (statusWord s = 0x13#32 ↔ s.runState = .fault ∧ s.cause = some .illegalInstruction) ∧
      (statusWord s = 0x23#32 ↔ s.runState = .fault ∧ s.cause = some .operandRange) ∧
      (statusWord s = 0x33#32 ↔ s.runState = .fault ∧ s.cause = some .pcOverrun))

/-- R32: host reads and writes of PC. -/
def Obligations.PcIsReadAndWrittenThroughTheWindow : Prop :=
  ∀ s : State,
    (s.nextEvent = .access (.read 32 0x808#12) →
      ∃ w : Word, w.toNat = s.pc.toNat ∧ step s = .next { s.taken with replies := s.replies ++ [.data w] }) ∧
    (∀ w : Word, s.nextEvent = .access (.write 32 0x808#12 w) →
      (s.runState = .idle ∨ s.runState = .halted →
        ∃ t, step s = .next t ∧ t.pc.toNat = bits w 7 0 ∧ t = { s.taken with pc := t.pc, replies := s.replies ++ [.accepted] }) ∧
      (s.runState = .run ∨ s.runState = .fault → step s = .next { s.taken with replies := s.replies ++ [.refused] }))

/-- Reads have no side effect (R48): a host read leaves the unit as it was, and the same read again gives the same answer. -/
def Obligations.ReadsHaveNoSideEffect : Prop :=
  ∀ (s t : State) (width : Nat) (offset : BitVec 12), s.nextEvent = .access (.read width offset) → step s = .next t →
    ∃ r, t = { s.taken with replies := s.replies ++ [r] } ∧ windowRead s width offset = some r ∧ windowRead t width offset = some r

/-- R151: the two level outputs. -/
def Obligations.OutputsFollowState : Prop :=
  ∀ s : State,
    (s.done = true ↔ s.runState = .halted) ∧ (s.faultOut = true ↔ s.runState = .fault) ∧
    (s.Inv → (s.done = true ↔ statusWord s = 0x02#32) ∧
      (s.faultOut = true ↔ statusWord s ∈ [0x13#32, 0x23#32, 0x33#32]))

/-- The program store changes only by an accepted host write or at power-on (R26, R40, R53): no step of the sequencer writes it. -/
def Obligations.OnlyTheHostWritesTheProgramStore : Prop :=
  ∀ s t : State, step s = .next t → t.pmem ≠ s.pmem →
    (∃ regs, s.nextEvent = .powerOn regs) ∨
    (∃ offset w, s.nextEvent = .access (.write 32 offset w) ∧ 0x400 ≤ offset.toNat ∧ offset.toNat < 0x800 ∧
      (s.runState = .idle ∨ s.runState = .halted))

/-- Outside RUN a register changes only by a host write or at power-on (R137, its last sentence; R161). -/
def Obligations.RegistersPersistOutsideRun : Prop :=
  ∀ (s t : State) (n : VReg), s.runState ≠ .run → step s = .next t → t.v[n] ≠ s.v[n] →
    (∃ regs, s.nextEvent = .powerOn regs) ∨
    (∃ offset w, s.nextEvent = .access (.write 32 offset w) ∧ offset.toNat / 32 = n.val ∧
      (s.runState = .idle ∨ s.runState = .halted))
end

