-- ==== Sys2Proof/Laws/Decode.lean ====
section
/-! SUPPORT. The fields of the encoder's words, format by format (30_encoding.md R61, R66), and what a successful decoding says of a word. -/

namespace Sys2Proof

/-! ### A word's fields as numbers. -/

theorem bits_op (w : Word) : bits w 31 26 = w.toNat / 67108864 := by
  have := w.isLt
  simp only [bits, Nat.reducePow, Nat.reduceAdd, Nat.reduceSub]; omega

theorem regField_val (w : Word) (lo : Nat) : (regField w lo).val = w.toNat / 2 ^ lo % 32 := rfl

/-! ### Formats R and U. -/

theorem toNat_encodeRU {op vb : Nat} (hop : op < 64) (hb : vb < 32) (vd va : VReg) :
    (encodeRU op vd va vb).toNat = op * 67108864 + vd.val * 2097152 + va.val * 65536 + vb * 2048 := by
  have := vd.isLt; have := va.isLt
  simp only [encodeRU, BitVec.toNat_ofNat, Nat.reducePow]; omega

theorem encodeRU_fields {op vb : Nat} (hop : op < 64) (hb : vb < 32) (vd va : VReg) :
    bits (encodeRU op vd va vb) 31 26 = op ∧ bits (encodeRU op vd va vb) 10 0 = 0 ∧
    regField (encodeRU op vd va vb) 21 = vd ∧ regField (encodeRU op vd va vb) 16 = va ∧
    (regField (encodeRU op vd va vb) 11).val = vb ∧ bits (encodeRU op vd va vb) 15 0 = vb * 2048 := by
  have := vd.isLt; have := va.isLt
  simp only [Fin.ext_iff, regField_val, bits, toNat_encodeRU hop hb, Nat.reducePow, Nat.reduceAdd, Nat.reduceSub]
  omega

/-! ### Format K. -/

theorem toNat_encodeK {op n k : Nat} (hop : op < 64) (hn : n < 2) (hk : k < 32) (vd va : VReg) :
    (encodeK op vd va n k).toNat = op * 67108864 + vd.val * 2097152 + va.val * 65536 + n * 32 + k := by
  have := vd.isLt; have := va.isLt
  simp only [encodeK, BitVec.toNat_ofNat, Nat.reducePow]; omega

theorem encodeK_fields {op n k : Nat} (hop : op < 64) (hn : n < 2) (hk : k < 32) (vd va : VReg) :
    bits (encodeK op vd va n k) 31 26 = op ∧ bits (encodeK op vd va n k) 15 6 = 0 ∧
    regField (encodeK op vd va n k) 21 = vd ∧ regField (encodeK op vd va n k) 16 = va ∧
    bits (encodeK op vd va n k) 5 5 = n ∧ bits (encodeK op vd va n k) 4 0 = k := by
  have := vd.isLt; have := va.isLt
  simp only [Fin.ext_iff, regField_val, bits, toNat_encodeK hop hn hk, Nat.reducePow, Nat.reduceAdd, Nat.reduceSub]
  omega

/-! ### Format M. -/

theorem toNat_encodeM {op w : Nat} (hop : op < 64) (hw : w < 2) (vs : VReg) :
    (encodeM op vs w).toNat = op * 67108864 + vs.val * 2048 + w := by
  have := vs.isLt
  simp only [encodeM, BitVec.toNat_ofNat, Nat.reducePow]; omega

theorem encodeM_fields {op w : Nat} (hop : op < 64) (hw : w < 2) (vs : VReg) :
    bits (encodeM op vs w) 31 26 = op ∧ zerosM (encodeM op vs w) = true ∧ regField (encodeM op vs w) 11 = vs ∧
    bits (encodeM op vs w) 0 0 = w := by
  have := vs.isLt
  simp only [Fin.ext_iff, regField_val, zerosM, bits, decide_eq_true_eq, toNat_encodeM hop hw, Nat.reducePow, Nat.reduceAdd,
    Nat.reduceSub]
  omega

/-! ### The legal operand values as inequalities (R63, R64). -/

theorem shiftLegal_iff (k : Nat) : shiftLegal k = true ↔ 1 ≤ k ∧ k ≤ 24 := by simp [shiftLegal, Config.kMin, Config.kMax]

theorem sumLegal_iff (w : Width) (vs : VReg) : sumLegal w vs = true ↔ w.positions ≤ vs.val := by simp [sumLegal]

/-! ### A word rebuilt from its fields, format by format. -/

theorem toNat_of_fieldsRU (w : Word) (z : bits w 10 0 = 0) :
    w.toNat = bits w 31 26 * 67108864 + (regField w 21).val * 2097152 + (regField w 16).val * 65536 + (regField w 11).val * 2048 := by
  simp only [bits, regField_val, Nat.reducePow, Nat.reduceAdd, Nat.reduceSub] at *
  have := w.isLt
  omega

theorem toNat_of_fieldsK (w : Word) (z : bits w 15 6 = 0) :
    w.toNat = bits w 31 26 * 67108864 + (regField w 21).val * 2097152 + (regField w 16).val * 65536 + bits w 5 5 * 32 + bits w 4 0 := by
  simp only [bits, regField_val, Nat.reducePow, Nat.reduceAdd, Nat.reduceSub] at *
  have := w.isLt
  omega

theorem toNat_of_fieldsM (w : Word) (z : zerosM w = true) :
    w.toNat = bits w 31 26 * 67108864 + (regField w 11).val * 2048 + bits w 0 0 := by
  rw [zerosM, decide_eq_true_eq] at z
  simp only [bits, regField_val, Nat.reducePow, Nat.reduceAdd, Nat.reduceSub] at *
  have := w.isLt
  omega

theorem bits_zero_zero (w : Word) : bits w 0 0 = 0 ∨ bits w 0 0 = 1 := by
  simp only [bits, Nat.reducePow, Nat.reduceAdd, Nat.reduceSub]
  omega

theorem bits_five_five (w : Word) : bits w 5 5 = 0 ∨ bits w 5 5 = 1 := by
  simp only [bits, Nat.reducePow, Nat.reduceAdd, Nat.reduceSub]
  omega

/-! ### What each format's decoder accepts. -/

theorem decodeR_ok {mk : VReg → VReg → VReg → Instr} {w : Word} {i : Instr} (h : decodeR mk w = .ok i) :
    bits w 10 0 = 0 ∧ i = mk (regField w 21) (regField w 16) (regField w 11) := by
  unfold decodeR at h
  split at h
  · exact ⟨‹_›, (Except.ok.inj h).symm⟩
  · cases h

theorem decodeU_ok {mk : VReg → VReg → Instr} {w : Word} {i : Instr} (h : decodeU mk w = .ok i) :
    bits w 15 0 = 0 ∧ i = mk (regField w 21) (regField w 16) := by
  unfold decodeU at h
  split at h
  · exact ⟨‹_›, (Except.ok.inj h).symm⟩
  · cases h

theorem decodeK_ok {pos neg : VReg → VReg → Nat → Instr} {w : Word} {i : Instr} (h : decodeK pos neg w = .ok i) :
    bits w 15 6 = 0 ∧ shiftLegal (bits w 4 0) = true ∧
    i = (if bits w 5 5 = 0 then pos else neg) (regField w 21) (regField w 16) (bits w 4 0) := by
  unfold decodeK at h
  split at h
  · split at h
    · exact ⟨‹_›, ‹_›, (Except.ok.inj h).symm⟩
    · cases h
  · cases h

theorem decodeDmul_ok {w : Word} {i : Instr} (h : decodeDmul w = .ok i) :
    zerosM w = true ∧ bits w 15 11 = 0 ∧ ((bits w 0 0 = 0 ∧ i = .dmul16) ∨ (bits w 0 0 ≠ 0 ∧ i = .dmul24)) := by
  unfold decodeDmul widthField at h
  split at h
  · split at h
    · by_cases hb : bits w 0 0 = 0
      · rw [if_pos hb] at h
        exact ⟨‹_›, ‹_›, .inl ⟨hb, (Except.ok.inj h).symm⟩⟩
      · rw [if_neg hb] at h
        exact ⟨‹_›, ‹_›, .inr ⟨hb, (Except.ok.inj h).symm⟩⟩
    · cases h
  · cases h

theorem decodeSum_ok {mk16 mk24 : VReg → Instr} {w : Word} {i : Instr} (h : decodeSum mk16 mk24 w = .ok i) :
    zerosM w = true ∧ ((bits w 0 0 = 0 ∧ sumLegal .w16 (regField w 11) = true ∧ i = mk16 (regField w 11)) ∨
      (bits w 0 0 ≠ 0 ∧ sumLegal .w24 (regField w 11) = true ∧ i = mk24 (regField w 11))) := by
  unfold decodeSum widthField at h
  split at h
  · by_cases hb : bits w 0 0 = 0
    · rw [if_pos hb] at h
      split at h
      · exact ⟨‹_›, .inl ⟨hb, ‹_›, (Except.ok.inj h).symm⟩⟩
      · cases h
    · rw [if_neg hb] at h
      split at h
      · exact ⟨‹_›, .inr ⟨hb, ‹_›, (Except.ok.inj h).symm⟩⟩
      · cases h
  · cases h

theorem decodeZ_ok {z i : Instr} {w : Word} (h : decodeZ z w = .ok i) : bits w 25 0 = 0 ∧ i = z := by
  unfold decodeZ at h
  split at h
  · exact ⟨‹_›, (Except.ok.inj h).symm⟩
  · cases h

/-- A word that decodes has one of the nine opcodes of R65, and its format's decoder gave the instruction. -/
theorem decode_ok_cases {w : Word} {i : Instr} (h : decode w = .ok i) :
    (bits w 31 26 = 0x01 ∧ decodeR .vadd w = .ok i) ∨ (bits w 31 26 = 0x02 ∧ decodeR .vsub w = .ok i) ∨
    (bits w 31 26 = 0x03 ∧ decodeR .vsadd w = .ok i) ∨ (bits w 31 26 = 0x04 ∧ decodeU .vhalve w = .ok i) ∨
    (bits w 31 26 = 0x05 ∧ decodeK .vmul2k .vnmul2k w = .ok i) ∨ (bits w 31 26 = 0x08 ∧ decodeDmul w = .ok i) ∨
    (bits w 31 26 = 0x09 ∧ decodeSum .asum16 .asum24 w = .ok i) ∨ (bits w 31 26 = 0x0A ∧ decodeSum .dlin16 .dlin24 w = .ok i) ∨
    (bits w 31 26 = 0x3F ∧ decodeZ .halt w = .ok i) := by
  unfold decode at h
  repeat' split at h
  all_goals first
    | cases h
    | simp_all

end Sys2Proof
end

