-- ==== Sys2Proof/Laws/State.lean ====
section
/-! SUPPORT. One lemma per field of State per named update, true by rfl, so that no later proof unfolds a record update. -/

namespace Sys2Proof.Machine

variable (s : State)

@[simp] theorem State.writeV_v (n : VReg) (x : LaneVec) : (s.writeV n x).v = s.v.set n.val x n.isLt := rfl
@[simp] theorem State.writeV_pc (n : VReg) (x : LaneVec) : (s.writeV n x).pc = s.pc := rfl
@[simp] theorem State.writeV_runState (n : VReg) (x : LaneVec) : (s.writeV n x).runState = s.runState := rfl
@[simp] theorem State.writeV_cause (n : VReg) (x : LaneVec) : (s.writeV n x).cause = s.cause := rfl
@[simp] theorem State.writeV_pmem (n : VReg) (x : LaneVec) : (s.writeV n x).pmem = s.pmem := rfl
@[simp] theorem State.writeV_inbox (n : VReg) (x : LaneVec) : (s.writeV n x).inbox = s.inbox := rfl
@[simp] theorem State.writeV_replies (n : VReg) (x : LaneVec) : (s.writeV n x).replies = s.replies := rfl

@[simp] theorem State.writeLane_v (n : VReg) (l : Fin 8) (w : Word) : (s.writeLane n l w).v = s.v.set n.val (s.v[n].set l.val w l.isLt) n.isLt := rfl
@[simp] theorem State.writeLane_pc (n : VReg) (l : Fin 8) (w : Word) : (s.writeLane n l w).pc = s.pc := rfl
@[simp] theorem State.writeLane_runState (n : VReg) (l : Fin 8) (w : Word) : (s.writeLane n l w).runState = s.runState := rfl
@[simp] theorem State.writeLane_cause (n : VReg) (l : Fin 8) (w : Word) : (s.writeLane n l w).cause = s.cause := rfl
@[simp] theorem State.writeLane_pmem (n : VReg) (l : Fin 8) (w : Word) : (s.writeLane n l w).pmem = s.pmem := rfl
@[simp] theorem State.writeLane_inbox (n : VReg) (l : Fin 8) (w : Word) : (s.writeLane n l w).inbox = s.inbox := rfl
@[simp] theorem State.writeLane_replies (n : VReg) (l : Fin 8) (w : Word) : (s.writeLane n l w).replies = s.replies := rfl

@[simp] theorem State.advance_v : (s.advance).v = s.v := rfl
@[simp] theorem State.advance_pc : (s.advance).pc = s.pc + 1#9 := rfl
@[simp] theorem State.advance_runState : (s.advance).runState = s.runState := rfl
@[simp] theorem State.advance_cause : (s.advance).cause = s.cause := rfl
@[simp] theorem State.advance_pmem : (s.advance).pmem = s.pmem := rfl
@[simp] theorem State.advance_inbox : (s.advance).inbox = s.inbox := rfl
@[simp] theorem State.advance_replies : (s.advance).replies = s.replies := rfl

@[simp] theorem State.raise_v (f : UnitFault) : (s.raise f).v = s.v := rfl
@[simp] theorem State.raise_pc (f : UnitFault) : (s.raise f).pc = s.pc := rfl
@[simp] theorem State.raise_runState (f : UnitFault) : (s.raise f).runState = .fault := rfl
@[simp] theorem State.raise_cause (f : UnitFault) : (s.raise f).cause = some f := rfl
@[simp] theorem State.raise_pmem (f : UnitFault) : (s.raise f).pmem = s.pmem := rfl
@[simp] theorem State.raise_inbox (f : UnitFault) : (s.raise f).inbox = s.inbox := rfl
@[simp] theorem State.raise_replies (f : UnitFault) : (s.raise f).replies = s.replies := rfl

@[simp] theorem State.resetControl_v : (s.resetControl).v = s.v := rfl
@[simp] theorem State.resetControl_pc : (s.resetControl).pc = 0#9 := rfl
@[simp] theorem State.resetControl_runState : (s.resetControl).runState = .idle := rfl
@[simp] theorem State.resetControl_cause : (s.resetControl).cause = none := rfl
@[simp] theorem State.resetControl_pmem : (s.resetControl).pmem = s.pmem := rfl
@[simp] theorem State.resetControl_inbox : (s.resetControl).inbox = s.inbox := rfl
@[simp] theorem State.resetControl_replies : (s.resetControl).replies = s.replies := rfl

@[simp] theorem State.powerOn_v (regs : RegFile) : (s.powerOn regs).v = regs := rfl
@[simp] theorem State.powerOn_pc (regs : RegFile) : (s.powerOn regs).pc = 0#9 := rfl
@[simp] theorem State.powerOn_runState (regs : RegFile) : (s.powerOn regs).runState = .idle := rfl
@[simp] theorem State.powerOn_cause (regs : RegFile) : (s.powerOn regs).cause = none := rfl
@[simp] theorem State.powerOn_pmem (regs : RegFile) : (s.powerOn regs).pmem = [] := rfl
@[simp] theorem State.powerOn_inbox (regs : RegFile) : (s.powerOn regs).inbox = s.inbox := rfl
@[simp] theorem State.powerOn_replies (regs : RegFile) : (s.powerOn regs).replies = s.replies := rfl

@[simp] theorem State.reply_v (r : Reply) : (s.reply r).v = s.v := rfl
@[simp] theorem State.reply_pc (r : Reply) : (s.reply r).pc = s.pc := rfl
@[simp] theorem State.reply_runState (r : Reply) : (s.reply r).runState = s.runState := rfl
@[simp] theorem State.reply_cause (r : Reply) : (s.reply r).cause = s.cause := rfl
@[simp] theorem State.reply_pmem (r : Reply) : (s.reply r).pmem = s.pmem := rfl
@[simp] theorem State.reply_inbox (r : Reply) : (s.reply r).inbox = s.inbox := rfl
@[simp] theorem State.reply_replies (r : Reply) : (s.reply r).replies = s.replies ++ [r] := rfl

@[simp] theorem State.taken_v : (s.taken).v = s.v := rfl
@[simp] theorem State.taken_pc : (s.taken).pc = s.pc := rfl
@[simp] theorem State.taken_runState : (s.taken).runState = s.runState := rfl
@[simp] theorem State.taken_cause : (s.taken).cause = s.cause := rfl
@[simp] theorem State.taken_pmem : (s.taken).pmem = s.pmem := rfl
@[simp] theorem State.taken_inbox : (s.taken).inbox = s.inbox.tail := rfl
@[simp] theorem State.taken_replies : (s.taken).replies = s.replies := rfl

@[simp] theorem State.readV_eq (n : VReg) : s.readV n = s.v[n] := rfl

/-- The state after reset, field by field (R36). -/
@[simp] theorem State.reset_runState : State.reset.runState = .idle := rfl
@[simp] theorem State.reset_cause : State.reset.cause = none := rfl
@[simp] theorem State.reset_pc : State.reset.pc = 0#9 := rfl
@[simp] theorem State.reset_pmem : State.reset.pmem = [] := rfl
@[simp] theorem State.reset_inbox : State.reset.inbox = [] := rfl
@[simp] theorem State.reset_replies : State.reset.replies = [] := rfl

/-- A check that passes ends in its next state, a check that fails raises OperandRange. -/
@[simp] theorem State.checked_true (t : State) : s.checked true t = t := rfl
@[simp] theorem State.checked_false (t : State) : s.checked false t = s.raise .operandRange := rfl
@[simp] theorem State.legal_true (t : State) : s.legal true t = t := rfl
@[simp] theorem State.legal_false (t : State) : s.legal false t = s.raise .illegalInstruction := rfl

end Sys2Proof.Machine
end

