-- ==== Sys2Proof/Laws/Lanes.lean ====
section
/-! SUPPORT. What the lane-by-lane operations, the range checks and the register operations do, lane by lane and register by register. -/

namespace Sys2Proof.Machine

/-! ### Lanes. -/

@[simp] theorem lanes1_lane (f : Word → Word) (x : LaneVec) (l : Nat) (h : l < 8) : (lanes1 f x)[l] = f x[l] := by
  simp [lanes1]

@[simp] theorem lanes2_lane (f : Word → Word → Word) (x y : LaneVec) (l : Nat) (h : l < 8) :
    (lanes2 f x y)[l] = f x[l] y[l] := by
  simp [lanes2]

theorem allLanes_iff (range : Word → Bool) (x : LaneVec) : allLanes range x = true ↔ ∀ l : Fin 8, range x[l] = true := by
  simp [allLanes]

/-- Two lane vectors with the same 8 lanes are the same. -/
theorem laneVec_ext {x y : LaneVec} (h : ∀ l : Fin 8, x[l] = y[l]) : x = y :=
  Vector.ext fun l hl => h ⟨l, hl⟩

/-- Two register files with the same 32 registers are the same. -/
theorem regFile_ext {v v' : RegFile} (h : ∀ n : VReg, v[n] = v'[n]) : v = v' :=
  Vector.ext fun n hn => h ⟨n, hn⟩

/-! ### Registers. -/

theorem writeV_same (s : State) (n : VReg) (x : LaneVec) : (s.writeV n x).v[n] = x := by simp

theorem writeV_other (s : State) {n m : VReg} (x : LaneVec) (h : m ≠ n) : (s.writeV n x).v[m] = s.v[m] := by
  simp [Fin.getElem_fin, Fin.val_ne_of_ne (Ne.symm h)]

/-! ### Ranges (R3, R4). -/

theorem canon_iff (w : Word) : canon w = true ↔ w.toNat < Config.P := by simp [canon]

theorem srange_iff (w : Word) : srange w = true ↔ -(Config.P : Int) < s32 w ∧ s32 w < Config.P := by simp [srange]

theorem s32_of_canon {w : Word} (h : canon w = true) : s32 w = w.toNat := by
  rw [canon_iff] at h
  have : w.toNat < 2 ^ 31 := by simp only [Config.P] at h; omega
  rw [s32, if_pos this]

/-- A canonical word is a signed-range word (R95, its last sentence). -/
theorem srange_of_canon {w : Word} (h : canon w = true) : srange w = true := by
  rw [srange_iff, s32_of_canon h]
  rw [canon_iff] at h
  simp only [Config.P] at *
  omega

/-- Narrowing a value of 32-bit signed range and reading it back as signed gives the value. -/
theorem s32_u32 {a : Int} (lo : -2 ^ 31 ≤ a) (hi : a < 2 ^ 31) : s32 (u32 a) = a := by
  simp only [s32, u32, BitVec.toNat_ofNat]
  split <;> omega

/-- Narrowing a natural number below `2^32` keeps it. -/
theorem toNat_u32 {a : Int} (lo : 0 ≤ a) (hi : a < 2 ^ 32) : ((u32 a).toNat : Int) = a := by
  simp only [u32, BitVec.toNat_ofNat]
  omega

/-! ### The macro instructions' check and write. -/

theorem stateInRange_iff (w : Width) (range : DiagRow → Word → Bool) (v : RegFile) :
    stateInRange w range v = true ↔ ∀ (n : VReg) (r : DiagRow), row w n.val = some r → ∀ l : Fin 8, range r v[n][l] = true := by
  simp only [stateInRange, decide_eq_true_eq]
  refine forall_congr' fun n => ?_
  cases h : row w n.val with
  | none => simp
  | some r => simp [allLanes_iff]

theorem mapState_row {w : Width} {n : VReg} {r : DiagRow} (h : row w n.val = some r) (f : DiagRow → LaneVec → LaneVec)
    (v : RegFile) : (mapState w f v)[n] = f r v[n] := by
  simp [mapState, h]

theorem mapState_other {w : Width} {n : VReg} (h : row w n.val = none) (f : DiagRow → LaneVec → LaneVec) (v : RegFile) :
    (mapState w f v)[n] = v[n] := by
  simp [mapState, h]

/-- The layer processes exactly positions `1 .. WIDTH-1` (R23, R104). -/
theorem row_isSome (w : Width) (n : VReg) : (row w n.val).isSome = decide (1 ≤ n.val ∧ n.val < w.positions) := by
  revert w n; intro w; cases w <;> decide

theorem row_none_iff (w : Width) (n : VReg) : row w n.val = none ↔ n.val = 0 ∨ w.positions ≤ n.val := by
  have h := row_isSome w n
  cases hr : row w n.val <;> simp [hr] at h ⊢ <;> omega

end Sys2Proof.Machine
end

