-- ==== Sys2Proof/Laws/Exec.lean ====
section
/-! SUPPORT. What exec can do, said once: every instruction answers a next state, and that state has one of four shapes. -/

namespace Sys2Proof.Machine

/-- What a template of R93 or R116 leaves: the check failed and OperandRange was raised, or it passed and the instruction completed. -/
theorem checked_cases (s : State) (inRange : Bool) (t : State) :
    (inRange = false ∧ s.checked inRange t = s.raise .operandRange) ∨ (inRange = true ∧ s.checked inRange t = t) := by
  cases inRange <;> simp

/-- An instruction completed: some registers were written, `pc` moved on, nothing else changed. -/
def State.completed (s : State) (regs : RegFile) : State := ({ s with v := regs } : State).advance

theorem writeV_eq (s : State) (n : VReg) (x : LaneVec) : (s.writeV n x).advance = s.completed (s.v.set n.val x n.isLt) := rfl

theorem unary_cases (s : State) (f : Word → Word) (vd va : VReg) :
    s.unary f vd va = s.raise .operandRange ∨
    (s.unary f vd va = s.completed (s.v.set vd.val (lanes1 f s.v[va]) vd.isLt) ∧ ∀ l : Fin 8, canon s.v[va][l] = true) := by
  rcases checked_cases s (allLanes canon (s.readV va)) (s.writeV vd (lanes1 f (s.readV va))).advance with ⟨-, h⟩ | ⟨hc, h⟩
  · exact .inl h
  · exact .inr ⟨h, (allLanes_iff _ _).mp hc⟩

theorem binary_cases (s : State) (range : Word → Bool) (f : Word → Word → Word) (vd va vb : VReg) :
    s.binary range f vd va vb = s.raise .operandRange ∨
    (s.binary range f vd va vb = s.completed (s.v.set vd.val (lanes2 f s.v[va] s.v[vb]) vd.isLt) ∧
      (∀ l : Fin 8, canon s.v[va][l] = true) ∧ ∀ l : Fin 8, range s.v[vb][l] = true) := by
  rcases checked_cases s (allLanes canon (s.readV va) && allLanes range (s.readV vb))
    (s.writeV vd (lanes2 f (s.readV va) (s.readV vb))).advance with ⟨-, h⟩ | ⟨hc, h⟩
  · exact .inl h
  · obtain ⟨ha, hb⟩ := Bool.and_eq_true_iff.mp hc
    exact .inr ⟨h, (allLanes_iff _ _).mp ha, (allLanes_iff _ _).mp hb⟩

theorem dmul_cases (s : State) (w : Width) :
    s.dmul w = s.raise .operandRange ∨
    (s.dmul w = s.completed (mapState w (fun r x => lanes1 (dk r.kind) x) s.v) ∧ stateInRange w (fun _ => canon) s.v = true) := by
  rcases checked_cases s (stateInRange w (fun _ => canon) s.v)
    (s.completed (mapState w (fun r x => lanes1 (dk r.kind) x) s.v)) with ⟨-, h⟩ | ⟨hc, h⟩
  · exact .inl h
  · exact .inr ⟨h, hc⟩

theorem asum_cases (s : State) (w : Width) (vs : VReg) :
    s.asum w vs = s.raise .operandRange ∨
    (s.asum w vs = s.completed (mapState w (fun r y => lanes2 (ag r.group) s.v[vs] y) s.v) ∧
      (∀ l : Fin 8, canon s.v[vs][l] = true) ∧ stateInRange w (fun r => r.group.range) s.v = true) := by
  rcases checked_cases s (allLanes canon (s.readV vs) && stateInRange w (fun r => r.group.range) s.v)
    (s.completed (mapState w (fun r y => lanes2 (ag r.group) s.v[vs] y) s.v)) with ⟨-, h⟩ | ⟨hc, h⟩
  · exact .inl h
  · obtain ⟨ha, hb⟩ := Bool.and_eq_true_iff.mp hc
    exact .inr ⟨h, (allLanes_iff _ _).mp ha, hb⟩

theorem dlin_cases (s : State) (w : Width) (vs : VReg) :
    s.dlin w vs = s.raise .operandRange ∨
    (s.dlin w vs =
        s.completed (mapState w (fun r x => lanes2 (fun sum y => ag r.group sum (dk r.kind y)) s.v[vs] x) s.v) ∧
      (∀ l : Fin 8, canon s.v[vs][l] = true) ∧ stateInRange w (fun _ => canon) s.v = true) := by
  rcases checked_cases s (allLanes canon (s.readV vs) && stateInRange w (fun _ => canon) s.v)
    (s.completed (mapState w (fun r x => lanes2 (fun sum y => ag r.group sum (dk r.kind y)) s.v[vs] x) s.v)) with ⟨-, h⟩ | ⟨hc, h⟩
  · exact .inl h
  · obtain ⟨ha, hb⟩ := Bool.and_eq_true_iff.mp hc
    exact .inr ⟨h, (allLanes_iff _ _).mp ha, hb⟩

/-! The same, one direction at a time: an instruction whose operands are in range completes, one with a bad word raises OperandRange. -/

theorem allLanes_bad {range : Word → Bool} {x : LaneVec} {l : Fin 8} (h : range x[l] = false) : allLanes range x = false :=
  Bool.eq_false_iff.mpr fun h' => Bool.eq_false_iff.mp h ((allLanes_iff _ _).mp h' l)

theorem stateInRange_bad {w : Width} {range : DiagRow → Word → Bool} {v : RegFile} {n : VReg} {r : DiagRow} {l : Fin 8}
    (hr : row w n.val = some r) (h : range r v[n][l] = false) : stateInRange w range v = false :=
  Bool.eq_false_iff.mpr fun h' => Bool.eq_false_iff.mp h ((stateInRange_iff _ _ _).mp h' n r hr l)

theorem checked_ok (s : State) {inRange : Bool} (h : inRange = true) (t : State) : s.checked inRange t = t := by rw [h]; rfl

theorem checked_bad (s : State) {inRange : Bool} (h : inRange = false) (t : State) :
    s.checked inRange t = s.raise .operandRange := by rw [h]; rfl

theorem legal_ok (s : State) {isLegal : Bool} (h : isLegal = true) (t : State) : s.legal isLegal t = t := by rw [h]; rfl

theorem legal_bad (s : State) {isLegal : Bool} (h : isLegal = false) (t : State) :
    s.legal isLegal t = s.raise .illegalInstruction := by rw [h]; rfl

theorem unary_ok {s : State} {va : VReg} (f : Word → Word) (vd : VReg) (ha : ∀ l : Fin 8, canon s.v[va][l] = true) :
    s.unary f vd va = s.completed (s.v.set vd.val (lanes1 f s.v[va]) vd.isLt) :=
  checked_ok s ((allLanes_iff _ _).mpr ha) _

theorem unary_bad {s : State} {va : VReg} (f : Word → Word) (vd : VReg) {l : Fin 8} (h : canon s.v[va][l] = false) :
    s.unary f vd va = s.raise .operandRange := checked_bad s (allLanes_bad h) _

theorem binary_ok {s : State} {range : Word → Bool} {va vb : VReg} (f : Word → Word → Word) (vd : VReg)
    (ha : ∀ l : Fin 8, canon s.v[va][l] = true) (hb : ∀ l : Fin 8, range s.v[vb][l] = true) :
    s.binary range f vd va vb = s.completed (s.v.set vd.val (lanes2 f s.v[va] s.v[vb]) vd.isLt) :=
  checked_ok s (Bool.and_eq_true_iff.mpr ⟨(allLanes_iff _ _).mpr ha, (allLanes_iff _ _).mpr hb⟩) _

theorem binary_bad {s : State} {range : Word → Bool} {va vb : VReg} (f : Word → Word → Word) (vd : VReg) {l : Fin 8}
    (h : canon s.v[va][l] = false ∨ range s.v[vb][l] = false) : s.binary range f vd va vb = s.raise .operandRange :=
  checked_bad s (Bool.and_eq_false_iff.mpr (h.imp allLanes_bad allLanes_bad)) _

theorem dmul_ok {s : State} {w : Width} (h : stateInRange w (fun _ => canon) s.v = true) :
    s.dmul w = s.completed (mapState w (fun r x => lanes1 (dk r.kind) x) s.v) := checked_ok s h _

theorem dmul_bad {s : State} {w : Width} (h : stateInRange w (fun _ => canon) s.v = false) :
    s.dmul w = s.raise .operandRange := checked_bad s h _

theorem asum_ok {s : State} {w : Width} {vs : VReg} (hs : ∀ l : Fin 8, canon s.v[vs][l] = true)
    (h : stateInRange w (fun r => r.group.range) s.v = true) :
    s.asum w vs = s.completed (mapState w (fun r y => lanes2 (ag r.group) s.v[vs] y) s.v) :=
  checked_ok s (Bool.and_eq_true_iff.mpr ⟨(allLanes_iff _ _).mpr hs, h⟩) _

theorem asum_bad {s : State} {w : Width} {vs : VReg}
    (h : (∃ l : Fin 8, canon s.v[vs][l] = false) ∨ stateInRange w (fun r => r.group.range) s.v = false) :
    s.asum w vs = s.raise .operandRange :=
  checked_bad s (Bool.and_eq_false_iff.mpr (h.imp (fun ⟨_, hl⟩ => allLanes_bad hl) id)) _

theorem dlin_ok {s : State} {w : Width} {vs : VReg} (hs : ∀ l : Fin 8, canon s.v[vs][l] = true)
    (h : stateInRange w (fun _ => canon) s.v = true) :
    s.dlin w vs = s.completed (mapState w (fun r x => lanes2 (fun sum y => ag r.group sum (dk r.kind y)) s.v[vs] x) s.v) :=
  checked_ok s (Bool.and_eq_true_iff.mpr ⟨(allLanes_iff _ _).mpr hs, h⟩) _

theorem dlin_bad {s : State} {w : Width} {vs : VReg}
    (h : (∃ l : Fin 8, canon s.v[vs][l] = false) ∨ stateInRange w (fun _ => canon) s.v = false) :
    s.dlin w vs = s.raise .operandRange :=
  checked_bad s (Bool.and_eq_false_iff.mpr (h.imp (fun ⟨_, hl⟩ => allLanes_bad hl) id)) _

/-! ### The shapes of exec. -/

theorem legal_cases (s : State) (isLegal : Bool) (t : State) :
    (isLegal = false ∧ s.legal isLegal t = s.raise .illegalInstruction) ∨ (isLegal = true ∧ s.legal isLegal t = t) := by
  cases isLegal <;> simp

/-- A register outside the layer of a width keeps its words through a macro instruction's write. -/
theorem mapState_frame {w : Width} {n : VReg} (h : n.val = 0 ∨ w.positions ≤ n.val) (f : DiagRow → LaneVec → LaneVec) (v : RegFile) :
    (mapState w f v)[n] = v[n] := mapState_other ((row_none_iff w n).mpr h) f v

/-- The four shapes of an instruction's outcome. -/
inductive ExecShape (i : Instr) (s : State) : State → Prop
  /-- The term is no instruction (R70). -/
  | illegal (h : i.wellFormed = false) : ExecShape i s (s.raise .illegalInstruction)
  /-- An operand is out of range (R142). -/
  | range : ExecShape i s (s.raise .operandRange)
  /-- HALT (R132). -/
  | halt (h : i = .halt) : ExecShape i s { s with runState := .halted }
  /-- Completed: only destination registers and `pc` changed. -/
  | done (regs : RegFile) (h : i ≠ .halt) (frame : ∀ n : VReg, writesReg i n = false → regs[n] = s.v[n]) :
      ExecShape i s (s.completed regs)

theorem frame_set (v : RegFile) (d n : VReg) (x : LaneVec) (h : decide (n = d) = false) : (v.set d.val x d.isLt)[n] = v[n] := by
  have : d.val ≠ n.val := fun e => by simp [Fin.ext e.symm] at h
  simp [this]

theorem frame_map (w : Width) (f : DiagRow → LaneVec → LaneVec) (v : RegFile) (n : VReg)
    (h : decide (1 ≤ n.val ∧ n.val ≤ w.positions - 1) = false) : (mapState w f v)[n] = v[n] := by
  refine mapState_frame ?_ f v
  have h := of_decide_eq_false h
  cases w <;> simp only [Width.positions] at * <;> omega

theorem unary_shape {i : Instr} {s : State} {f : Word → Word} {vd va : VReg} (hi : i ≠ .halt)
    (hw : ∀ n, writesReg i n = decide (n = vd)) : ExecShape i s (s.unary f vd va) := by
  rcases unary_cases s f vd va with h | ⟨h, -⟩ <;> rw [h]
  · exact .range
  · exact .done _ hi fun n hn => frame_set _ _ _ _ (hw n ▸ hn)

theorem binary_shape {i : Instr} {s : State} {range : Word → Bool} {f : Word → Word → Word} {vd va vb : VReg} (hi : i ≠ .halt)
    (hw : ∀ n, writesReg i n = decide (n = vd)) : ExecShape i s (s.binary range f vd va vb) := by
  rcases binary_cases s range f vd va vb with h | ⟨h, -⟩ <;> rw [h]
  · exact .range
  · exact .done _ hi fun n hn => frame_set _ _ _ _ (hw n ▸ hn)

theorem legal_shape {i : Instr} {s t : State} {isLegal : Bool} (hl : i.wellFormed = isLegal) (h : ExecShape i s t) :
    ExecShape i s (s.legal isLegal t) := by
  rcases legal_cases s isLegal t with ⟨hf, h'⟩ | ⟨-, h'⟩ <;> rw [h']
  · exact .illegal (hl.trans hf)
  · exact h

/-- Every instruction answers a next state, of one of the four shapes. -/
theorem exec_shape (i : Instr) (s : State) : ∃ t, exec i s = .next t ∧ ExecShape i s t := by
  cases i with
  | vadd vd va vb => exact ⟨_, rfl, binary_shape (by simp) fun _ => rfl⟩
  | vsub vd va vb => exact ⟨_, rfl, binary_shape (by simp) fun _ => rfl⟩
  | vsadd vd va vb => exact ⟨_, rfl, binary_shape (by simp) fun _ => rfl⟩
  | vhalve vd va => exact ⟨_, rfl, unary_shape (by simp) fun _ => rfl⟩
  | vmul2k vd va k => exact ⟨_, rfl, legal_shape rfl (unary_shape (by simp) fun _ => rfl)⟩
  | vnmul2k vd va k => exact ⟨_, rfl, legal_shape rfl (unary_shape (by simp) fun _ => rfl)⟩
  | dmul16 =>
    refine ⟨_, rfl, ?_⟩
    rcases dmul_cases s .w16 with h | ⟨h, -⟩ <;> rw [h]
    · exact .range
    · exact .done _ (by simp) fun n hn => frame_map .w16 _ _ n hn
  | dmul24 =>
    refine ⟨_, rfl, ?_⟩
    rcases dmul_cases s .w24 with h | ⟨h, -⟩ <;> rw [h]
    · exact .range
    · exact .done _ (by simp) fun n hn => frame_map .w24 _ _ n hn
  | asum16 vs =>
    refine ⟨_, rfl, legal_shape rfl ?_⟩
    rcases asum_cases s .w16 vs with h | ⟨h, -⟩ <;> rw [h]
    · exact .range
    · exact .done _ (by simp) fun n hn => frame_map .w16 _ _ n hn
  | asum24 vs =>
    refine ⟨_, rfl, legal_shape rfl ?_⟩
    rcases asum_cases s .w24 vs with h | ⟨h, -⟩ <;> rw [h]
    · exact .range
    · exact .done _ (by simp) fun n hn => frame_map .w24 _ _ n hn
  | dlin16 vs =>
    refine ⟨_, rfl, legal_shape rfl ?_⟩
    rcases dlin_cases s .w16 vs with h | ⟨h, -⟩ <;> rw [h]
    · exact .range
    · exact .done _ (by simp) fun n hn => frame_map .w16 _ _ n hn
  | dlin24 vs =>
    refine ⟨_, rfl, legal_shape rfl ?_⟩
    rcases dlin_cases s .w24 vs with h | ⟨h, -⟩ <;> rw [h]
    · exact .range
    · exact .done _ (by simp) fun n hn => frame_map .w24 _ _ n hn
  | halt => exact ⟨_, rfl, .halt rfl⟩

theorem exec_next_shape {i : Instr} {s t : State} (h : exec i s = .next t) : ExecShape i s t := by
  obtain ⟨u, hu, shape⟩ := exec_shape i s
  rw [h] at hu
  cases hu
  exact shape

@[simp] theorem State.completed_v (s : State) (regs : RegFile) : (s.completed regs).v = regs := rfl
@[simp] theorem State.completed_pc (s : State) (regs : RegFile) : (s.completed regs).pc = s.pc + 1#9 := rfl
@[simp] theorem State.completed_runState (s : State) (regs : RegFile) : (s.completed regs).runState = s.runState := rfl
@[simp] theorem State.completed_cause (s : State) (regs : RegFile) : (s.completed regs).cause = s.cause := rfl
@[simp] theorem State.completed_pmem (s : State) (regs : RegFile) : (s.completed regs).pmem = s.pmem := rfl
@[simp] theorem State.completed_inbox (s : State) (regs : RegFile) : (s.completed regs).inbox = s.inbox := rfl
@[simp] theorem State.completed_replies (s : State) (regs : RegFile) : (s.completed regs).replies = s.replies := rfl

end Sys2Proof.Machine
end

