-- ==== Sys2Proof/Laws/Layer.lean ====
section
/-! SUPPORT. The macro instructions' positions: each processed register's row beside the columns of R100 and R101, and the range check of
each macro instruction as plain conditions on registers. -/

namespace Sys2Proof.Machine

/-- Every processed register has a row, whose kind, group and residue are its columns' entries. -/
theorem row_columns : ∀ (w : Width) (n : VReg), 1 ≤ n.val → n.val < w.positions →
    ∃ r, row w n.val = some r ∧ (kindColumn w)[n.val - 1]? = some r.kind ∧ r.group = groupAt n.val ∧
      r.entry.residue = (residueColumn w).getD n.val 0 := by
  intro w
  cases w <;> decide

/-- A register that has a row is processed. -/
theorem row_bounds {w : Width} {n : VReg} {r : DiagRow} (h : row w n.val = some r) : 1 ≤ n.val ∧ n.val < w.positions := by
  have := row_isSome w n
  rw [h] at this
  simpa using this.symm

theorem group_of_row {w : Width} {n : VReg} {r : DiagRow} (h : row w n.val = some r) : r.group = groupAt n.val := by
  obtain ⟨r', h', -, hg, -⟩ := row_columns w n (row_bounds h).1 (row_bounds h).2
  rw [h] at h'
  cases h'
  exact hg

/-- The check of DMUL and DLIN on the state registers. -/
theorem canonState_iff (w : Width) (s : State) :
    stateInRange w (fun _ => canon) s.v = true ↔ s.canonRegs 1 (w.positions - 1) := by
  rw [stateInRange_iff]
  refine ⟨fun h n lo hi l => ?_, fun h n r hr l => h n (row_bounds hr).1 (Nat.le_sub_one_of_lt (row_bounds hr).2) l⟩
  obtain ⟨r, hr, -⟩ := row_columns w n lo (by omega)
  exact h n r hr l

/-- The check of ASUM on the state registers. -/
theorem groupState_iff (w : Width) (s : State) :
    stateInRange w (fun r => r.group.range) s.v = true ↔ s.canonRegs 1 8 ∧ s.signedRegs 9 (w.positions - 1) := by
  have small : 16 ≤ w.positions := by cases w <;> decide
  rw [stateInRange_iff]
  constructor
  · intro h
    refine ⟨fun n lo hi l => ?_, fun n lo hi l => ?_⟩
    · obtain ⟨r, hr, -⟩ := row_columns w n lo (by omega)
      have := h n r hr l
      by_cases h5 : n.val ≤ 5
      · rw [group_of_row hr, groupAt, if_pos h5] at this
        exact this
      · rw [group_of_row hr, groupAt, if_neg h5, if_pos hi] at this
        exact this
    · obtain ⟨r, hr, -⟩ := row_columns w n (by omega) (by omega)
      have := h n r hr l
      rw [group_of_row hr, groupAt, if_neg (by omega), if_neg (by omega)] at this
      exact this
  · intro h n r hr l
    have b := row_bounds hr
    rw [group_of_row hr, groupAt]
    split
    · exact h.1 n b.1 (by omega) l
    · split
      · exact h.1 n b.1 (by omega) l
      · exact h.2 n (by omega) (by omega) l

/-! ### exec of a macro instruction, by width. -/

theorem exec_dmulOf (w : Width) (s : State) : exec (dmulOf w) s = .next (s.dmul w) := by cases w <;> rfl

theorem exec_asumOf {w : Width} {vs : VReg} (h : w.positions ≤ vs.val) (s : State) :
    exec (asumOf w vs) s = .next (s.asum w vs) := by
  have : sumLegal w vs = true := (sumLegal_iff w vs).mpr h
  cases w <;> exact congrArg Host.Outcome.next (legal_ok s this _)

theorem exec_dlinOf {w : Width} {vs : VReg} (h : w.positions ≤ vs.val) (s : State) :
    exec (dlinOf w vs) s = .next (s.dlin w vs) := by
  have : sumLegal w vs = true := (sumLegal_iff w vs).mpr h
  cases w <;> exact congrArg Host.Outcome.next (legal_ok s this _)

/-- One lane of one processed register after a macro instruction's write. -/
theorem mapState_lane {w : Width} {n : VReg} {r : DiagRow} (h : row w n.val = some r) (f : DiagRow → LaneVec → LaneVec) (v : RegFile)
    (l : Fin 8) : (mapState w f v)[n][l] = (f r v[n])[l] := by rw [mapState_row h]

end Sys2Proof.Machine
end

