-- ==== Sys2Proof/Laws/Memory.lean ====
section
/-! SUPPORT. The laws of the program store: a read after a write, a write leaves other bytes alone, and every write keeps the canonical form. -/

namespace Sys2Proof.Machine

@[simp] theorem Memory.read_nil (a : Nat) : Memory.read [] a = none := rfl

theorem Memory.read_write_same (m : Memory) (a : Nat) (b : Byte) : (m.write a b).read a = some b := by
  induction m with
  | nil => simp [Memory.write, Memory.read]
  | cons c m ih =>
    obtain ⟨k, c⟩ := c
    simp only [Memory.write]
    split
    · simp [Memory.read]
    · split
      · simp [Memory.read]
      · rename_i h
        simp [Memory.read, Ne.symm h, ih]

theorem Memory.read_write_other (m : Memory) {a x : Nat} (b : Byte) (h : x ≠ a) : (m.write a b).read x = m.read x := by
  induction m with
  | nil => simp [Memory.write, Memory.read, Ne.symm h]
  | cons c m ih =>
    obtain ⟨k, c⟩ := c
    simp only [Memory.write]
    split
    · simp [Memory.read, Ne.symm h]
    · split
      · rename_i hk
        subst hk
        simp [Memory.read, Ne.symm h]
      · simp only [Memory.read, ih]

theorem Memory.mem_write {m : Memory} {a : Nat} {b : Byte} {c : Host.Cell} (h : c ∈ m.write a b) : c = (a, b) ∨ c ∈ m := by
  induction m with
  | nil => simpa [Memory.write] using h
  | cons d m ih =>
    obtain ⟨k, d⟩ := d
    simp only [Memory.write] at h
    split at h
    · simpa using h
    · split at h
      · rcases List.mem_cons.mp h with h | h
        · exact .inl h
        · exact .inr (List.mem_cons_of_mem _ h)
      · rcases List.mem_cons.mp h with h | h
        · exact .inr (h ▸ List.mem_cons_self)
        · exact (ih h).imp id (List.mem_cons_of_mem _)

/-- A write into the store's part of the window keeps the canonical form. -/
theorem Memory.wf_write {m : Memory} (h : m.wf) {a : Nat} (lo : 0x400 ≤ a) (hi : a < 0x800) (b : Byte) : (m.write a b).wf := by
  refine ⟨?_, fun c hc => ?_⟩
  · obtain ⟨h, -⟩ := h
    induction m with
    | nil => simp [Memory.write]
    | cons d m ih =>
      obtain ⟨k, d⟩ := d
      obtain ⟨hk, hm⟩ := List.pairwise_cons.mp h
      simp only [Memory.write]
      split
      · rename_i hlt
        refine List.pairwise_cons.mpr ⟨fun c hc => ?_, h⟩
        rcases List.mem_cons.mp hc with rfl | hc
        · exact hlt
        · exact Nat.lt_trans hlt (hk c hc)
      · split
        · rename_i hak
          subst hak
          exact List.pairwise_cons.mpr ⟨fun c hc => hk c hc, hm⟩
        · refine List.pairwise_cons.mpr ⟨fun c hc => ?_, ih hm⟩
          rcases Memory.mem_write hc with rfl | hc
          · simp only; omega
          · exact hk c hc
  · rcases Memory.mem_write hc with rfl | hc
    · exact ⟨lo, hi⟩
    · exact h.2 c hc

theorem wordOf_byteOf (w : Word) : wordOf (byteOf w 0) (byteOf w 1) (byteOf w 2) (byteOf w 3) = w := by
  apply BitVec.eq_of_toNat_eq
  simp only [wordOf, byteOf, BitVec.toNat_ofNat, Nat.reducePow]
  omega

/-- The bytes a word write leaves (R45: byte `n` of the word at offset `o + n`). -/
theorem Memory.read_writeWord_byte (m : Memory) (o : Nat) (w : Word) {n : Nat} (h : n < 4) :
    (m.writeWord o w).read (o + n) = some (byteOf w n) := by
  have : n = 0 ∨ n = 1 ∨ n = 2 ∨ n = 3 := by omega
  rcases this with rfl | rfl | rfl | rfl <;> simp [Memory.writeWord, Memory.read_write_same, Memory.read_write_other]

theorem Memory.read_writeWord_other (m : Memory) {o x : Nat} (w : Word) (h : x < o ∨ o + 4 ≤ x) :
    (m.writeWord o w).read x = m.read x := by
  simp only [Memory.writeWord]
  rw [Memory.read_write_other, Memory.read_write_other, Memory.read_write_other, Memory.read_write_other] <;> omega

theorem Memory.readWord_writeWord_same (m : Memory) (o : Nat) (w : Word) : (m.writeWord o w).readWord o = some w := by
  have h0 := m.read_writeWord_byte o w (n := 0) (by omega)
  have h1 := m.read_writeWord_byte o w (n := 1) (by omega)
  have h2 := m.read_writeWord_byte o w (n := 2) (by omega)
  have h3 := m.read_writeWord_byte o w (n := 3) (by omega)
  simp only [Nat.add_zero] at h0
  simp [Memory.readWord, h0, h1, h2, h3, wordOf_byteOf]

theorem Memory.readWord_writeWord_other (m : Memory) {o x : Nat} (w : Word) (h : x + 4 ≤ o ∨ o + 4 ≤ x) :
    (m.writeWord o w).readWord x = m.readWord x := by
  simp only [Memory.readWord]
  rw [Memory.read_writeWord_other, Memory.read_writeWord_other, Memory.read_writeWord_other, Memory.read_writeWord_other] <;> omega

theorem Memory.wf_writeWord {m : Memory} (h : m.wf) {o : Nat} (lo : 0x400 ≤ o) (hi : o + 4 ≤ 0x800) (w : Word) :
    (m.writeWord o w).wf := by
  simp only [Memory.writeWord]
  exact Memory.wf_write (Memory.wf_write (Memory.wf_write (Memory.wf_write h lo (by omega) _) (by omega) (by omega) _)
    (by omega) (by omega) _) (by omega) (by omega) _

/-! ### Program words (R43). -/

theorem programWord_write_same (m : Memory) (a : Nat) (w : Word) : programWord (writeProgramWord m a w) a = some w :=
  Memory.readWord_writeWord_same m _ w

theorem programWord_write_other (m : Memory) {a b : Nat} (w : Word) (h : b ≠ a) :
    programWord (writeProgramWord m a w) b = programWord m b := by
  refine Memory.readWord_writeWord_other m w ?_
  simp only [programOffset]
  omega

theorem writeProgramWord_wf {m : Memory} (h : m.wf) {a : Nat} (ha : a < 256) (w : Word) : (writeProgramWord m a w).wf := by
  refine Memory.wf_writeWord h ?_ ?_ w <;> simp only [programOffset] <;> omega

theorem writeProgramWord_wholeWords {m : Memory} (h : m.wholeWords) (a : Nat) (w : Word) :
    (writeProgramWord m a w).wholeWords := by
  intro b n
  by_cases hb : b.val = a
  · have h1 := Memory.read_writeWord_byte m (programOffset a) w n.isLt
    have h0 := Memory.read_writeWord_byte m (programOffset a) w (n := 0) (by omega)
    simp only [Nat.add_zero] at h0
    simp only [writeProgramWord, hb, h0, h1, Option.isSome_some]
  · have e : ∀ k, k < 4 → (writeProgramWord m a w).read (programOffset b.val + k) = m.read (programOffset b.val + k) := by
      intro k hk
      refine Memory.read_writeWord_other m w ?_
      simp only [programOffset]
      omega
    have e0 := e 0 (by omega)
    simp only [Nat.add_zero] at e0
    rw [e n.val n.isLt, e0]
    exact h b n

/-- No program word is written in an empty store. -/
theorem programWord_nil (a : Nat) : programWord [] a = none := rfl

end Sys2Proof.Machine
end

