-- ==== Sys2Proof/Laws/PerInstr.lean ====
section
/-! SUPPORT. Facts about every instruction as syntax, one lemma per constructor: an instruction's word carries in bits 31:26 the opcode of
its row in the table of R66. -/

namespace Sys2Proof.Laws.OpcodeField

/-- A well-formed instruction has a row in the table of R66, and its word has that row's opcode (R65). -/
def Statement (i : Instr) : Prop :=
  i.wellFormed = true → ∃ row ∈ opcodeRows, row.mnemonic = i.mnemonic ∧ bits row.value 31 26 = bits (encode i) 31 26

/-- The statement from one row and the opcode the row and the word share. -/
theorem of_row {i : Instr} {op : Nat} (row : OpcodeRow) (mem : row ∈ opcodeRows) (name : row.mnemonic = i.mnemonic)
    (value : bits row.value 31 26 = op) (word : i.wellFormed = true → bits (encode i) 31 26 = op) : Statement i :=
  fun h => ⟨row, mem, name, value.trans (word h).symm⟩

theorem vadd (vd va vb : VReg) : Statement (.vadd vd va vb) :=
  of_row (op := 1) opcodeRows[0] (by decide) rfl (by decide) (fun _ => (encodeRU_fields (op := 0x01) (by decide) vb.isLt vd va).1)

theorem vsub (vd va vb : VReg) : Statement (.vsub vd va vb) :=
  of_row (op := 2) opcodeRows[1] (by decide) rfl (by decide) (fun _ => (encodeRU_fields (op := 0x02) (by decide) vb.isLt vd va).1)

theorem vsadd (vd va vb : VReg) : Statement (.vsadd vd va vb) :=
  of_row (op := 3) opcodeRows[2] (by decide) rfl (by decide) (fun _ => (encodeRU_fields (op := 0x03) (by decide) vb.isLt vd va).1)

theorem vhalve (vd va : VReg) : Statement (.vhalve vd va) :=
  of_row (op := 4) opcodeRows[3] (by decide) rfl (by decide) (fun _ => (encodeRU_fields (op := 0x04) (vb := 0) (by decide) (by decide) vd va).1)

theorem vmul2k (vd va : VReg) (k : Nat) : Statement (.vmul2k vd va k) :=
  of_row (op := 5) opcodeRows[4] (by decide) rfl (by decide) (fun h =>
    (encodeK_fields (op := 0x05) (n := 0) (by decide) (by decide) (Nat.lt_of_le_of_lt ((shiftLegal_iff k).mp h).2 (by decide)) vd va).1)

theorem vnmul2k (vd va : VReg) (k : Nat) : Statement (.vnmul2k vd va k) :=
  of_row (op := 5) opcodeRows[5] (by decide) rfl (by decide) (fun h =>
    (encodeK_fields (op := 0x05) (n := 1) (by decide) (by decide) (Nat.lt_of_le_of_lt ((shiftLegal_iff k).mp h).2 (by decide)) vd va).1)

theorem dmul16 : Statement .dmul16 :=
  of_row (op := 8) opcodeRows[6] (by decide) rfl (by decide) (fun _ => by decide)

theorem dmul24 : Statement .dmul24 :=
  of_row (op := 8) opcodeRows[7] (by decide) rfl (by decide) (fun _ => by decide)

theorem asum16 (vs : VReg) : Statement (.asum16 vs) :=
  of_row (op := 9) opcodeRows[8] (by decide) rfl (by decide) (fun _ => (encodeM_fields (op := 0x09) (w := 0) (by decide) (by decide) vs).1)

theorem asum24 (vs : VReg) : Statement (.asum24 vs) :=
  of_row (op := 9) opcodeRows[9] (by decide) rfl (by decide) (fun _ => (encodeM_fields (op := 0x09) (w := 1) (by decide) (by decide) vs).1)

theorem dlin16 (vs : VReg) : Statement (.dlin16 vs) :=
  of_row (op := 10) opcodeRows[10] (by decide) rfl (by decide) (fun _ => (encodeM_fields (op := 0x0A) (w := 0) (by decide) (by decide) vs).1)

theorem dlin24 (vs : VReg) : Statement (.dlin24 vs) :=
  of_row (op := 10) opcodeRows[11] (by decide) rfl (by decide) (fun _ => (encodeM_fields (op := 0x0A) (w := 1) (by decide) (by decide) vs).1)

theorem halt : Statement .halt :=
  of_row (op := 63) opcodeRows[12] (by decide) rfl (by decide) (fun _ => by decide)

end Sys2Proof.Laws.OpcodeField
end

