-- ==== Sys2Proof/Laws/Step.lean ====
section
/-! SUPPORT. What one step can do: the next event in one form, the sequencer's turn case by case, and the host's accesses case by case. -/

namespace Sys2Proof.Machine

/-! ### Step and events. -/

/-- A step takes the next event, the sequencer's turn being one of them. -/
theorem step_eq (s : State) : step s = takeEvent s.nextEvent s.taken := by
  obtain ⟨v, pc, rs, c, m, inbox, rep⟩ := s
  cases inbox <;> rfl

theorem nextEvent_nil {s : State} (h : s.inbox = []) : s.nextEvent = .unitStep := by simp [State.nextEvent, h]

theorem taken_nil {s : State} (h : s.inbox = []) : s.taken = s := by
  obtain ⟨v, pc, rs, c, m, inbox, rep⟩ := s
  cases h
  rfl

/-! ### Fetch (R130). -/

theorem fetch_overrun {s : State} (h : s.pc.toNat = 256) : fetch s = .overrun := by simp [fetch, h]

theorem fetch_word {s : State} {w : Word} (hp : s.pc.toNat < 256) (hw : programWord s.pmem s.pc.toNat = some w) :
    fetch s = .word w := by
  simp [fetch, hw, Nat.ne_of_lt hp, Nat.not_lt_of_gt hp]

theorem fetch_unwritten {s : State} (hp : s.pc.toNat < 256) (hw : programWord s.pmem s.pc.toNat = none) :
    fetch s = .unwritten := by
  simp [fetch, hw, Nat.ne_of_lt hp, Nat.not_lt_of_gt hp]

/-- The two ways a fetch ends where `pc` is in its range. -/
theorem fetch_cases {s : State} (h : s.pc.toNat ≤ 256) :
    (s.pc.toNat = 256 ∧ fetch s = .overrun) ∨
    (s.pc.toNat < 256 ∧ programWord s.pmem s.pc.toNat = none ∧ fetch s = .unwritten) ∨
    (s.pc.toNat < 256 ∧ ∃ w, programWord s.pmem s.pc.toNat = some w ∧ fetch s = .word w) := by
  rcases Nat.eq_or_lt_of_le h with h | h
  · exact .inl ⟨h, fetch_overrun h⟩
  · cases hw : programWord s.pmem s.pc.toNat with
    | none => exact .inr (.inl ⟨h, rfl, fetch_unwritten h hw⟩)
    | some w => exact .inr (.inr ⟨h, w, rfl, fetch_word h hw⟩)

theorem fetch_eq_word {s : State} {w : Word} (h : fetch s = .word w) :
    s.pc.toNat < 256 ∧ programWord s.pmem s.pc.toNat = some w := by
  unfold fetch at h
  split at h
  · cases h
  · split at h
    · cases h
    · split at h
      · cases h
      · cases h
        exact ⟨by omega, ‹_›⟩

/-! ### The sequencer's turn (R130, R35). -/

theorem sequencerTurn_stopped {s : State} (h : s.runState ≠ .run) : sequencerTurn s = .next s := by
  unfold sequencerTurn
  split <;> simp_all

theorem sequencerTurn_overrun {s : State} (h : s.runState = .run) (hf : fetch s = .overrun) :
    sequencerTurn s = .next (s.raise .pcOverrun) := by simp [sequencerTurn, h, hf]

theorem sequencerTurn_illegal {s : State} {w : Word} {r : Illegal} (h : s.runState = .run) (hf : fetch s = .word w)
    (hd : decode w = .error r) : sequencerTurn s = .next (s.raise .illegalInstruction) := by
  simp [sequencerTurn, h, hf, runWord, hd]

theorem sequencerTurn_exec {s : State} {w : Word} {i : Instr} (h : s.runState = .run) (hf : fetch s = .word w)
    (hd : decode w = .ok i) : sequencerTurn s = exec i s := by
  simp [sequencerTurn, h, hf, runWord, hd]

/-- The shapes of the sequencer's turn when it answers a next state. -/
inductive TurnShape (s : State) : State → Prop
  /-- The unit is not running and holds still (R35). -/
  | still (h : s.runState ≠ .run) : TurnShape s s
  /-- `pc` is past the end (R143). -/
  | overrun (h : s.runState = .run) (hp : s.pc.toNat = 256) : TurnShape s (s.raise .pcOverrun)
  /-- The word is no instruction (R141). -/
  | illegal (h : s.runState = .run) (w : Word) (hw : programWord s.pmem s.pc.toNat = some w) (hp : s.pc.toNat < 256)
      (hd : ∃ r, decode w = .error r) : TurnShape s (s.raise .illegalInstruction)
  /-- An instruction was executed. -/
  | ran (h : s.runState = .run) (w : Word) (i : Instr) (t : State) (hw : programWord s.pmem s.pc.toNat = some w)
      (hp : s.pc.toNat < 256) (hd : decode w = .ok i) (ht : exec i s = .next t) : TurnShape s t

theorem sequencerTurn_shape {s t : State} (h : sequencerTurn s = .next t) : TurnShape s t := by
  by_cases hr : s.runState = .run
  · cases hf : fetch s with
    | overrun =>
      rw [sequencerTurn_overrun hr hf] at h
      cases h
      refine .overrun hr ?_
      unfold fetch at hf
      split at hf
      · assumption
      · split at hf
        · cases hf
        · split at hf <;> cases hf
    | outside => simp [sequencerTurn, hr, hf] at h
    | unwritten => simp [sequencerTurn, hr, hf] at h
    | word w =>
      obtain ⟨hp, hw⟩ := fetch_eq_word hf
      cases hd : decode w with
      | error r =>
        rw [sequencerTurn_illegal hr hf hd] at h
        cases h
        exact .illegal hr w hw hp ⟨r, hd⟩
      | ok i =>
        rw [sequencerTurn_exec hr hf hd] at h
        exact .ran hr w i t hw hp hd h
  · rw [sequencerTurn_stopped hr] at h
    cases h
    exact .still hr

/-! ### Host accesses (R42 to R47). -/

/-- The shapes of the state after a host write. -/
inductive WriteShape (s : State) : State × Reply → Prop
  | refused : WriteShape s (s, .refused)
  | lane (n : VReg) (l : Fin 8) (w : Word) (h : s.runState = .idle ∨ s.runState = .halted) : WriteShape s (s.writeLane n l w, .accepted)
  | program (a : Nat) (w : Word) (ha : a < 256) (h : s.runState = .idle ∨ s.runState = .halted) :
      WriteShape s ({ s with pmem := writeProgramWord s.pmem a w }, .accepted)
  | reset : WriteShape s (s.resetControl, .accepted)
  | start (h : s.runState = .idle ∨ s.runState = .halted) : WriteShape s ({ s with runState := .run }, .accepted)
  | ignored : WriteShape s (s, .accepted)
  | pc (w : Word) (h : s.runState = .idle ∨ s.runState = .halted) :
      WriteShape s ({ s with pc := BitVec.ofNat 9 (w.toNat % 256) }, .accepted)

theorem loadable_iff (r : RunState) : r.loadable = true ↔ r = .idle ∨ r = .halted := by cases r <;> decide

theorem readable_iff (r : RunState) : r.readable = true ↔ r ≠ .run := by cases r <;> decide

theorem writeCtrl_shape (s : State) (w : Word) : WriteShape s (s.writeCtrl w, .accepted) := by
  unfold State.writeCtrl
  split
  · exact .reset
  · split
    · rename_i h
      exact .start ((loadable_iff _).mp (Bool.and_eq_true_iff.mp h).2)
    · exact .ignored

/-- The program word at a window offset below 0x800 is one of the 256. -/
theorem target_program {offset : BitVec 12} {a : Nat} (h : target offset = .program a) :
    a < 256 ∧ 0x400 ≤ offset.toNat ∧ offset.toNat < 0x800 ∧ a = (offset.toNat - 0x400) / 4 := by
  unfold target at h
  split at h
  · cases h
  · split at h
    · cases h
      omega
    · repeat' split at h
      all_goals cases h

theorem target_lane {offset : BitVec 12} {n : VReg} {l : Fin 8} (h : target offset = .lane n l) :
    offset.toNat < 0x400 ∧ n.val = offset.toNat / 32 ∧ l.val = offset.toNat / 4 % 8 := by
  unfold target at h
  split at h
  · cases h
    exact ⟨‹_›, rfl, rfl⟩
  · repeat' split at h
    all_goals cases h

theorem windowWrite_shape (s : State) (width : Nat) (offset : BitVec 12) (w : Word) :
    WriteShape s (windowWrite s width offset w) := by
  unfold windowWrite
  split
  · split
    · split
      · exact .lane _ _ _ ((loadable_iff _).mp ‹_›)
      · exact .refused
    · rename_i a ht
      split
      · exact .program a w (target_program ht).1 ((loadable_iff _).mp ‹_›)
      · exact .refused
    · exact writeCtrl_shape s w
    · exact .refused
    · split
      · exact .pc w ((loadable_iff _).mp ‹_›)
      · exact .refused
    · exact .refused
  · exact .refused

/-- A host access that answers a next state is a read, which records its answer, or a write. -/
theorem hostAccess_next {a : Access} {s t : State} (h : hostAccess a s = .next t) :
    (∃ width offset r, a = .read width offset ∧ windowRead s width offset = some r ∧ t = s.reply r) ∨
    (∃ width offset w, a = .write width offset w ∧ t = (windowWrite s width offset w).1.reply (windowWrite s width offset w).2) := by
  cases a with
  | read width offset =>
    unfold hostAccess at h
    cases hr : windowRead s width offset with
    | none => simp [hr] at h
    | some r =>
      simp only [hr, Host.Outcome.next.injEq] at h
      exact .inl ⟨width, offset, r, rfl, hr, h.symm⟩
  | write width offset w =>
    cases h
    exact .inr ⟨width, offset, w, rfl, rfl⟩

end Sys2Proof.Machine
end

