-- ==== Sys2Proof/Tests/Slice0.lean ====
section
/-! SUPPORT. The model's own tests: words written out from 30_encoding.md, the vectors of 95_test_vectors.md (whose section each test names),
a smoke test of WellFormed, and for every statement that has hypotheses a witness that meets them. -/

namespace Sys2Proof.Tests

open Sys2Proof.Machine

/-! ## WellFormed refuses (R63, R64) -/

theorem test_wellFormed_shift_zero : (Instr.vmul2k 9 9 0).wellFormed = false ∧ (Instr.vnmul2k 9 9 0).wellFormed = false := by decide
theorem test_wellFormed_shift_25 : (Instr.vmul2k 9 9 25).wellFormed = false ∧ (Instr.vnmul2k 9 9 25).wellFormed = false := by decide
theorem test_wellFormed_sum16 : (Instr.asum16 15).wellFormed = false ∧ (Instr.dlin16 15).wellFormed = false := by decide
theorem test_wellFormed_sum24 : (Instr.asum24 23).wellFormed = false ∧ (Instr.dlin24 23).wellFormed = false := by decide
theorem test_wellFormed_legal : (Instr.vmul2k 9 9 24).wellFormed = true ∧ (Instr.vnmul2k 9 9 1).wellFormed = true ∧
    (Instr.asum16 16).wellFormed = true ∧ (Instr.dlin24 24).wellFormed = true := by decide

/-! ## Decoding: one word per constructor, its fields written side by side (R61); section 3.1 -/

-- op 000001, vd 00011, va 00001, vb 00010, zeros
theorem test_decode_vadd : decode 0b000001_00011_00001_00010_00000000000#32 = .ok (.vadd 3 1 2) := by decide
theorem test_decode_vsub : decode 0b000010_10000_10000_00000_00000000000#32 = .ok (.vsub 16 16 0) := by decide
theorem test_decode_vsadd : decode 0b000011_00101_11110_01001_00000000000#32 = .ok (.vsadd 5 30 9) := by decide
-- op 000100, vd, va, zeros
theorem test_decode_vhalve : decode 0b000100_00010_00011_0000000000000000#32 = .ok (.vhalve 2 3) := by decide
-- op 000101, vd, va, zeros, n, k
theorem test_decode_vmul2k : decode 0b000101_01001_01110_0000000000_0_01000#32 = .ok (.vmul2k 9 14 8) := by decide
theorem test_decode_vnmul2k : decode 0b000101_01010_01110_0000000000_1_11000#32 = .ok (.vnmul2k 10 14 24) := by decide
-- op, zeros, vs, zeros, w
theorem test_decode_dmul16 : decode 0b001000_0000000000_00000_0000000000_0#32 = .ok .dmul16 := by decide
theorem test_decode_dmul24 : decode 0b001000_0000000000_00000_0000000000_1#32 = .ok .dmul24 := by decide
theorem test_decode_asum16 : decode 0b001001_0000000000_10111_0000000000_0#32 = .ok (.asum16 23) := by decide
theorem test_decode_asum24 : decode 0b001001_0000000000_11111_0000000000_1#32 = .ok (.asum24 31) := by decide
theorem test_decode_dlin16 : decode 0b001010_0000000000_11111_0000000000_0#32 = .ok (.dlin16 31) := by decide
theorem test_decode_dlin24 : decode 0b001010_0000000000_11000_0000000000_1#32 = .ok (.dlin24 24) := by decide
-- op 111111, zeros
theorem test_decode_halt : decode 0b111111_00000000000000000000000000#32 = .ok .halt := by decide

/-- The illegal words of section 3.1, all of them. -/
theorem test_decode_illegal :
    ([0x00000000#32, 0xFFFFFFFF#32, 0x04611001#32, 0x04611400#32, 0x10420800#32, 0x15290000#32, 0x15290019#32, 0x1529001F#32,
      0x15290039#32, 0x15290048#32, 0x20000800#32, 0x20000002#32, 0x20010000#32, 0x24007800#32, 0x24000000#32, 0x2400B801#32,
      0x24208000#32, 0x28007800#32, 0x2800B801#32, 0xFC000001#32, 0x18000000#32, 0x1C000000#32, 0x2C000000#32, 0xF8000000#32]).all
      (fun w => (decode w).toOption == none) = true := by decide

theorem test_assembler_spelling : (Instr.vmul2k 9 9 8).asm = "vmul2k v9, v9, 8" ∧ (Instr.asum24 24).asm = "asum.24 v24" ∧
    Instr.vdbl 10 1 = .vadd 10 1 1 := by decide

/-! ## Operand ranges and lane functions (sections 2.1 to 2.6) -/

theorem test_ranges :
    ([0x00000000#32, 0x7F000000#32, 0x7F000001#32, 0x80000000#32, 0x80FFFFFF#32, 0x81000000#32, 0xFFFFFFFF#32]).map
      (fun w => (canon w, srange w)) =
    [(true, true), (true, true), (false, false), (false, false), (false, false), (false, true), (false, true)] := by decide
theorem test_fadd : fadd 2000000000#32 2000000000#32 = 1869293567#32 ∧ fadd 1065353216#32 1065353217#32 = 0#32 := by decide
theorem test_fsub : fsub 2000000000#32 1#32 = 1999999999#32 ∧ fsub 1#32 2130706432#32 = 2#32 := by decide
theorem test_fhalve : fhalve 1065353217#32 = 1598029825#32 ∧ fhalve 305419896#32 = 152709948#32 := by decide
theorem test_fsadd : fsadd 5#32 0xFFFFFFFA#32 = 2130706432#32 ∧ fsadd 1#32 0x7F000000#32 = 0#32 := by decide
theorem test_fmul2k : fmul2k 511#32 9 = 0x813F8000#32 ∧ fmul2k 3#32 1 = 0xC0800001#32 := by decide
theorem test_fnmul2k : fnmul2k 5#32 4 = 0x27B00000#32 ∧ fnmul2k 2130706432#32 24 = 0xFFFFFF81#32 := by decide

/-! ## One instruction on a small state -/

/-- A running unit at `pc` = 0 whose register words are given by position and lane. -/
def unitWith (f : Nat → Nat → Word) : State :=
  { State.reset with runState := .run, v := Vector.ofFn fun n => Vector.ofFn fun l => f n.val l.val }

/-- Section 3.5's start: the state all ones, the registers from `v16` on all 100. -/
def ones : State := unitWith fun n _ => if n < 16 then 1#32 else 100#32

/-- `ones` with one word changed. -/
def onesBut (n l : Nat) (w : Word) : State := unitWith fun m k => if m = n ∧ k = l then w else if m < 16 then 1#32 else 100#32

/-- Section 3.3's start for width 16 (`vs = v16`): `x` at every position, `sum` in `v16`. -/
def layer16 (x sum : Word) : State := unitWith fun n _ => if n < 16 then x else sum

/-- Section 3.3's start for width 24 (`vs = v24`). -/
def layer24 (x sum : Word) : State := unitWith fun n _ => if n < 24 then x else sum

/-- One lane's words at the listed registers after an instruction, `none` where it does not complete. -/
def lane0After (i : Instr) (s : State) (regs : List VReg) : Option (List Word) :=
  match exec i s with
  | .next t => if t.runState = s.runState ∧ t.pc = s.pc + 1 then some (regs.map fun n => t.v[n][(0 : Fin 8)]) else none
  | .fault _ => none
  | .refused _ => none

/-- The instruction raised a fault, and nothing but CAUSE and STATE changed. -/
def raises (i : Instr) (s : State) (f : UnitFault) : Bool :=
  match exec i s with
  | .next t => decide (t = { s with cause := some f, runState := .fault })
  | .fault _ => false
  | .refused _ => false

-- Section 4.1, lane 7 (v3, v4, v5, v8) and lane 5 (v6, v7) of program P1
theorem test_vadd : lane0After (.vadd 3 1 2) (unitWith fun n _ => if n = 1 then 305419896#32 else 2000000000#32) [3, 1]
    = some [174713463#32, 305419896#32] := by decide
theorem test_vsub : lane0After (.vsub 4 1 2) (unitWith fun n _ => if n = 1 then 305419896#32 else 2000000000#32) [4]
    = some [436126329#32] := by decide
theorem test_vsadd : lane0After (.vsadd 8 2 6) (unitWith fun n _ => if n = 2 then 2000000000#32 else 0xC48A3456#32) [8]
    = some [1002424406#32] := by decide
theorem test_vhalve : lane0After (.vhalve 5 1) (unitWith fun n _ => if n = 1 then 305419896#32 else 9#32) [5, 6]
    = some [152709948#32, 9#32] := by decide
theorem test_vmul2k : lane0After (.vmul2k 6 1 8) (unitWith fun n _ => if n = 1 then 2130706431#32 else 0#32) [6]
    = some [0x81FDFFFF#32] := by decide
theorem test_vnmul2k : lane0After (.vnmul2k 7 1 8) (unitWith fun n _ => if n = 1 then 2130706431#32 else 0#32) [7]
    = some [0x7E020001#32] := by decide
-- Section 3.2: source and destination the same register
theorem test_vadd_in_place : lane0After (.vadd 1 1 1) (unitWith fun _ _ => 2130706432#32) [1] = some [2130706431#32] := by decide
theorem test_vsub_in_place : lane0After (.vsub 1 1 1) (unitWith fun _ _ => 2130706432#32) [1] = some [0#32] := by decide
-- Section 3.2: faults, nothing written
theorem test_vsadd_range : raises (.vsadd 3 2 1) (onesBut 1 0 0x80FFFFFF#32) .operandRange = true ∧
    raises (.vsadd 3 1 2) (onesBut 1 0 0xFF810000#32) .operandRange = true := by decide
theorem test_vhalve_range : raises (.vhalve 3 1) (onesBut 1 7 0x7F000001#32) .operandRange = true := by decide

-- Section 3.3, WIDTH = 16, x = 0x12345678, s = 2000000000
theorem test_dmul16 : lane0After .dmul16 (layer16 0x12345678#32 2000000000#32) [5, 8, 9, 12, 15] =
    some [0x48D159E0#32, 0x48D159E0#32, 0xC48A3456#32, 0xFDB97531#32, 0x19F6E576#32] := by decide
theorem test_dlin16 : lane0After (.dlin16 16) (layer16 0x12345678#32 2000000000#32) [2, 6, 7, 10, 14, 16] =
    some [480133359#32, 1847290052#32, 1083740312#32, 866869161#32, 1564389002#32, 2000000000#32] := by decide
-- Section 3.3, WIDTH = 24: positions 11, 16, 20, 21, 23
theorem test_dmul24 : lane0After .dmul24 (layer24 0x12345678#32 2000000000#32) [11, 16, 20, 21, 23] =
    some [0x048D159E#32, 0xA151A2B3#32, 0x76EB9754#32, 0x1DBAE5D5#32, 0x19F6E576#32] := by decide
theorem test_dlin24 : lane0After (.dlin24 24) (layer24 0x12345678#32 2000000000#32) [11, 16, 20, 21, 23] =
    some [2076354974#32, 411514547#32, 1864444755#32, 368081364#32, 304904565#32] := by decide
-- Section 3.5; ASUM.24 from R111's fsadd(7, 0xE0400000)
theorem test_asum16 : lane0After (.asum16 16) (onesBut 9 0 0xFF810000#32) [1, 6, 9, 0] =
    some [101#32, 99#32, 2122383461#32, 1#32] := by decide
theorem test_asum24 : lane0After (.asum24 24) (unitWith fun n _ => if n = 24 then 7#32 else if n = 11 then 0xE0400000#32 else 3#32)
    [5, 8, 11, 23, 24] = some [10#32, 4#32, 1598029832#32, 10#32, 7#32] := by decide
theorem test_dmul16_range : raises .dmul16 (onesBut 7 3 0x7F000001#32) .operandRange = true := by decide
theorem test_asum16_range : raises (.asum16 16) (onesBut 8 0 0xFF810000#32) .operandRange = true := by decide
theorem test_dlin16_ignores_v20 : (lane0After (.dlin16 16) (onesBut 20 0 0x7F000001#32) [1]).isSome = true := by decide
theorem test_dlin24_reads_v20 : raises (.dlin24 24) (onesBut 20 0 0x7F000001#32) .operandRange = true := by decide
theorem test_macros_ignore_v0 : (lane0After .dmul24 (onesBut 0 0 0x7F000001#32) [1]).isSome = true := by decide

/-! ## The host window (section 3.6): one access on a small state -/

/-- The unit with one pending event. -/
def pending (s : State) (e : Event) : State := { s with inbox := [e] }

/-- The state and the bus's last answer after one step. -/
def afterStep (s : State) : Option (State × Option Reply) :=
  match step s with
  | .next t => some (t, t.replies.getLast?)
  | .fault _ => none
  | .refused _ => none

/-- HALT at index 0, the unit idle: section 3.6's state after line 9. -/
def haltLoaded : State := { State.reset with pmem := writeProgramWord [] 0 0xFC000000#32 }

theorem test_window_map : ([0x000#12, 0x01C#12, 0x12C#12, 0x3FC#12, 0x400#12, 0x7FC#12, 0x800#12, 0x804#12, 0x808#12, 0x80C#12, 0xFFC#12]).map target =
    [.lane 0 0, .lane 0 7, .lane 9 3, .lane 31 7, .program 0, .program 255, .ctrl, .status, .pc, .reserved, .reserved] := by decide
theorem test_window_lane_unchecked : (afterStep (pending State.reset (.access (.write 32 0x020#12 0xFFFFFFFF#32)))).map
    (fun p => (p.1.v[(1 : VReg)][(0 : Fin 8)], p.2)) = some (0xFFFFFFFF#32, some .accepted) := by decide
theorem test_window_refuses_narrow : (afterStep (pending State.reset (.access (.read 16 0x020#12)))).map (·.2) = some (some .refused) ∧
    (afterStep (pending State.reset (.access (.read 32 0x022#12)))).map (·.2) = some (some .refused) := by decide
theorem test_window_pc : (afterStep (pending State.reset (.access (.write 32 0x808#12 0x00000105#32)))).map (·.1.pc.toNat) = some 5 := by decide
theorem test_window_reset_wins : (afterStep (pending { ones with pc := 9 } (.access (.write 32 0x800#12 3#32)))).map
    (fun p => (p.1.runState, p.1.pc.toNat)) = some (.idle, 0) := by decide
theorem test_window_start : (afterStep (pending haltLoaded (.access (.write 32 0x800#12 1#32)))).map (·.1.runState) = some .run := by decide
theorem test_run_halts : (afterStep { haltLoaded with runState := .run }).map (fun p => (statusWord p.1, pcWord p.1)) =
    some (0x00000002#32, 0#32) := by decide
theorem test_bytes_little_endian : let m := writeProgramWord [] 1 0x12345678#32
    (m.read 0x404, m.read 0x405, m.read 0x406, m.read 0x407) = (some 0x78#8, some 0x56#8, some 0x34#8, some 0x12#8) := by decide
theorem test_status_in_fault : statusWord (ones.raise .operandRange) = 0x00000023#32 := by decide
theorem test_unwritten_word_stops : step { State.reset with runState := .run } = .fault .unwrittenProgramWord := by rfl
theorem test_step_runs_the_placed_word : (afterStep (State.reset.withFetchWord 32 0xFC000000)).map (·.1.runState) = some .halted ∧
    (afterStep (State.reset.withFetchWord 32 0)).map (·.1.cause) = some (some .illegalInstruction) := by decide

/-! ## Witnesses: for every statement that has hypotheses, states and operands that meet all of them, clause by clause -/

/-- An idle unit with the event `e` pending. -/
def idleWith (e : Event) : State := pending State.reset e

/-- A unit in FAULT with the event `e` pending. -/
def faultWith (e : Event) : State := pending (ones.raise .pcOverrun) e

/-- A running unit with word `w` at its `pc`. -/
def runningAt (pc : Nat) (w : Word) : State := { ones with pc := BitVec.ofNat 9 pc, pmem := writeProgramWord [] pc w }

/-- Lane 7 of `v1` is out of every range. -/
def badLane : State := onesBut 1 7 0x7F000001#32

theorem witness_DecodeOfEncodeIsTheInstruction :
    (Instr.vmul2k 0 31 1).wellFormed = true ∧ (Instr.vnmul2k 31 0 24).wellFormed = true ∧ (Instr.asum16 16).wellFormed = true ∧
    (Instr.dlin24 31).wellFormed = true := by decide
theorem witness_DecodedWordIsItsEncoding : decode 0x14000001#32 = .ok (.vmul2k 0 0 1) ∧ decode 0x2400B800#32 = .ok (.asum16 23) := by decide
theorem witness_IllegalWordsAreTheListedOnes : (runningAt 255 0x2400B801#32).inbox = [] ∧ (runningAt 255 0x2400B801#32).runState = .run ∧
    (runningAt 255 0x2400B801#32).pc.toNat < 256 ∧ programWord (runningAt 255 0x2400B801#32).pmem 255 = some 0x2400B801#32 ∧
    decode 0x2400B801#32 = .error .sumRegister := by decide
theorem witness_OperandRangesAsUnsignedSets : 0x7F000001 ≤ (0x7F000001#32 : Word).toNat ∧ (0x80FFFFFF#32 : Word).toNat ≤ 0x80FFFFFF := by decide
/-- FaddIsFieldAddition, FsubIsFieldSubtraction, FhalveIsTheUniqueHalf, KindsRealiseTheirEntries: the ends of the canonical range. -/
theorem witness_canonical : canon 0#32 = true ∧ canon 0x7F000000#32 = true := by decide
/-- FsaddIsSignedAddition, GroupsFoldTheSumIn: the ends of the signed range beside a canonical word. -/
theorem witness_signed : canon 0x7F000000#32 = true ∧ srange 0x81000000#32 = true ∧ srange 0x7F000000#32 = true := by decide
/-- Fmul2kMultipliesByTwoToMinusK, Fnmul2kIsTheNegation: both ends of the shift range. -/
theorem witness_shift : canon 0x7F000000#32 = true ∧ (1 ≤ 1 ∧ 1 ≤ 24) ∧ (1 ≤ 24 ∧ 24 ≤ 24) := by decide
/-- The half a word has: FhalveIsTheUniqueHalf's last clause. -/
theorem witness_half : 1065353217 < Config.P ∧ 2 * 1065353217 % Config.P = (1#32 : Word).toNat := by decide
theorem witness_DiagonalTablesAreAsPrinted : Width.w16.positions ≤ 16 ∧ Width.w24.positions ≤ 24 := by decide
theorem witness_positions : 15 < Width.w16.positions ∧ 23 < Width.w24.positions := by decide

/-- VADD, VSUB, VHALVE, VMUL2K, VNMUL2K: in range at both ends of the canonical range; and one bad lane. -/
theorem witness_lane_primitives :
    (∀ l : Fin 8, canon (unitWith fun n _ => if n = 1 then 0#32 else 0x7F000000#32).v[(1 : VReg)][l] = true ∧
      canon (unitWith fun n _ => if n = 1 then 0#32 else 0x7F000000#32).v[(2 : VReg)][l] = true) ∧
    (∃ l : Fin 8, canon badLane.v[(1 : VReg)][l] = false) := by decide
/-- VADD's and VSUB's and VSADD's clauses on single words. -/
theorem witness_lane_words : (0x7F000000#32 : Word).toNat + (1#32 : Word).toNat = Config.P ∧
    (canon 5#32 = true ∧ srange 0xFFFFFFFA#32 = true ∧ ((5#32 : Word).toNat : Int) + s32 0xFFFFFFFA#32 = -1) ∧
    (canon 1#32 = true ∧ srange 0x7F000000#32 = true ∧ ((1#32 : Word).toNat : Int) + s32 0x7F000000#32 = Config.P) ∧
    s32 0x81000000#32 = -((Config.P : Int) - 1) := by decide
theorem witness_VsaddAddsSignedLanes :
    (∀ l : Fin 8, canon ones.v[(1 : VReg)][l] = true ∧ srange (onesBut 2 0 0x81000000#32).v[(2 : VReg)][l] = true) ∧
    (∀ l : Fin 8, canon ones.v[(2 : VReg)][l] = true) ∧
    (∃ l : Fin 8, canon ones.v[(1 : VReg)][l] = false ∨ srange badLane.v[(1 : VReg)][l] = false) := by decide
/-- IllFormedTermsRaiseIllegalInstruction: the counts and sum registers next to the legal ones, and a word that decodes. -/
theorem witness_IllFormedTermsRaiseIllegalInstruction : (0 = 0 ∨ 24 < 0) ∧ (25 = 0 ∨ 24 < 25) ∧ (15 : VReg).val < 16 ∧ (23 : VReg).val < 24 ∧
    decode 0x24008000#32 = .ok (.asum16 16) := by decide
/-- The clauses on words with a count or sum register outside its legal values: VMUL2K (k = 25), VNMUL2K (k = 25, k = 0), ASUM and DLIN. -/
theorem witness_illegal_operand_fields :
    (bits 0x15290019#32 31 26 = 0x05 ∧ bits 0x15290019#32 5 5 = 0 ∧ 24 < bits 0x15290019#32 4 0) ∧
    (bits 0x15290039#32 31 26 = 0x05 ∧ bits 0x15290039#32 5 5 = 1 ∧ 24 < bits 0x15290039#32 4 0) ∧ bits 0x15290020#32 4 0 = 0 ∧
    (bits 0x24007800#32 31 26 = 0x09 ∧ bits 0x24007800#32 0 0 = 0 ∧ bits 0x24007800#32 15 11 < 16) ∧
    (bits 0x2400B801#32 31 26 = 0x09 ∧ bits 0x2400B801#32 0 0 = 1 ∧ bits 0x2400B801#32 15 11 < 24) ∧
    (bits 0x28007800#32 31 26 = 0x0A ∧ bits 0x28007800#32 0 0 = 0 ∧ bits 0x28007800#32 15 11 < 16) ∧
    (bits 0x2800B801#32 31 26 = 0x0A ∧ bits 0x2800B801#32 0 0 = 1 ∧ bits 0x2800B801#32 15 11 < 24) := by decide
/-- VMUL2K's and VNMUL2K's clause on an exact multiple. -/
theorem witness_exact_multiple : canon 256#32 = true ∧ (256#32 : Word).toNat = 1 * 2 ^ 8 := by decide

theorem witness_Dmul16MultipliesByTheDiagonal :
    (∀ n : VReg, 1 ≤ n.val → n.val ≤ 15 → ∀ l : Fin 8, canon ones.v[n][l] = true) ∧
    (∃ n : VReg, 1 ≤ n.val ∧ n.val ≤ 15 ∧ ∃ l : Fin 8, canon badLane.v[n][l] = false) := by decide
theorem witness_Dmul24MultipliesByTheDiagonal :
    (∀ n : VReg, 1 ≤ n.val → n.val ≤ 23 → ∀ l : Fin 8, canon ones.v[n][l] = true) ∧
    (∃ n : VReg, 1 ≤ n.val ∧ n.val ≤ 23 ∧ ∃ l : Fin 8, canon badLane.v[n][l] = false) := by decide
/-- The least legal sum register, a canonical sum, signed words at position 9; and the three ways to be out of range. -/
theorem witness_Asum16FoldsTheSumIn : 16 ≤ (16 : VReg).val ∧ (15 : VReg).val < 16 ∧
    operandsInRange (.asum16 16) (onesBut 9 0 0x81000000#32) = true ∧
    (∃ l : Fin 8, canon (onesBut 16 7 0x7F000001#32).v[(16 : VReg)][l] = false) ∧
    (∃ l : Fin 8, canon (onesBut 8 0 0xFFFFFFFF#32).v[(8 : VReg)][l] = false) ∧
    (∃ l : Fin 8, srange (onesBut 15 0 0x80FFFFFF#32).v[(15 : VReg)][l] = false) := by decide
theorem witness_Asum24FoldsTheSumIn : 24 ≤ (24 : VReg).val ∧ (23 : VReg).val < 24 ∧
    operandsInRange (.asum24 24) (onesBut 9 0 0x81000000#32) = true ∧
    (∃ l : Fin 8, canon (onesBut 24 7 0x7F000001#32).v[(24 : VReg)][l] = false) ∧
    (∃ l : Fin 8, srange (onesBut 23 0 0x80FFFFFF#32).v[(23 : VReg)][l] = false) := by decide
theorem witness_Dlin16ComputesTheLayer : (15 : VReg).val < 16 ∧ 16 ≤ (31 : VReg).val ∧ operandsInRange (.dlin16 31) ones = true ∧
    (∃ l : Fin 8, canon (onesBut 15 0 0xFFFFFFFF#32).v[(15 : VReg)][l] = false) := by decide
theorem witness_Dlin24ComputesTheLayer : (23 : VReg).val < 24 ∧ 24 ≤ (24 : VReg).val ∧ operandsInRange (.dlin24 24) ones = true ∧
    (∃ l : Fin 8, canon (onesBut 23 0 0xFFFFFFFF#32).v[(23 : VReg)][l] = false) := by decide
/-- DmulThenAsumIsTheDiagonalLayer, and the pair in the two DLIN statements: both widths at their least sum register; DMUL's own result serves as the state
in between; and a bad sum. -/
theorem witness_pair : Width.w16.positions ≤ (16 : VReg).val ∧ Width.w24.positions ≤ (24 : VReg).val ∧
    operandsInRange (.dlin16 16) ones = true ∧ operandsInRange (.dlin24 24) ones = true ∧
    (∀ n : VReg, (ones.dmul .w16).v[n] = (ones.dmul .w16).v[n]) ∧
    (∃ l : Fin 8, canon (onesBut 16 0 0x7F000001#32).v[(16 : VReg)][l] = false) := by decide
theorem witness_MacroEqualsItsPrimitiveSequence : ones.runState = .run ∧ operandsInRange (dmulOf .w16) ones = true ∧
    operandsInRange (dmulOf .w24) ones = true ∧ operandsInRange (asumOf .w16 16) ones = true ∧
    operandsInRange (asumOf .w24 31) ones = true := by decide
theorem witness_HaltStopsAtItsIndex : (runningAt 255 0xFC000000#32).inbox = [] ∧ (runningAt 255 0xFC000000#32).runState = .run ∧
    (runningAt 255 0xFC000000#32).pc.toNat < 256 ∧ programWord (runningAt 255 0xFC000000#32).pmem 255 = some 0xFC000000#32 ∧
    (runningAt 255 0xFC000000#32).cause = none := by decide
theorem witness_OperandRangeExactlyByTheTable : (Instr.asum16 16).wellFormed = true ∧ operandsInRange (.asum16 16) ones = true ∧
    operandsInRange (.asum16 16) badLane = false ∧ operandsInRange .halt badLane = true := by decide
/-- ExecChangesOnlyItsDestinations, MacrosIgnoreOtherRegisters: exec answers a next state. -/
theorem witness_exec : macroReads (.asum16 16) 0 = false ∧ writesReg (.asum16 16) 16 = false ∧ (∃ t, exec (.asum16 16) ones = .next t) :=
  ⟨by decide, by decide, _, rfl⟩
theorem witness_PcAdvancesByOneAndNeverWraps : operandsInRange .dmul16 (runningAt 255 0x20000000#32) = true ∧
    (runningAt 255 0x20000000#32).runState = .run ∧ (runningAt 255 0x20000000#32).inbox = [] ∧
    (runningAt 255 0x20000000#32).pc.toNat = 255 ∧ operandsInRange .dmul16 badLane = false ∧
    (∃ t, exec .dmul16 (runningAt 255 0x20000000#32) = .next t) :=
  ⟨by decide, by decide, by decide, by decide, by decide, _, rfl⟩
/-- Two states that agree in lane 0 and differ in lane 7; and lanes 0 and 6 of one state. -/
theorem witness_SimdLanesAreIndependent : operandsInRange .dmul16 ones = true ∧ operandsInRange .dmul16 (onesBut 1 7 5#32) = true ∧
    (∀ n : VReg, ones.v[n][(0 : Fin 8)] = (onesBut 1 7 5#32).v[n][(0 : Fin 8)] ∧ ones.v[n][(0 : Fin 8)] = ones.v[n][(6 : Fin 8)]) ∧
    (∃ t t', exec .dmul16 ones = .next t ∧ exec .dmul16 (onesBut 1 7 5#32) = .next t') :=
  ⟨by decide, by decide, by decide, _, _, rfl, rfl⟩

theorem witness_StepRunsTheDecodedInstruction : (runningAt 7 0x20000000#32).runState = .run ∧
    (runningAt 7 0x20000000#32).nextEvent = .unitStep ∧ (pending (runningAt 7 0x20000000#32) .unitStep).nextEvent = .unitStep ∧
    (runningAt 7 0x20000000#32).pc.toNat < 256 ∧ programWord (runningAt 7 0x20000000#32).pmem 7 = some 0x20000000#32 ∧
    decode 0x20000000#32 = .ok .dmul16 := by decide
theorem witness_PlacedWordIsTheNextInstruction : 0xFC000000 < 2 ^ 32 ∧ decodeTableWord 32 0xFC000000 = some .halt := by decide
theorem witness_FaultsAreTestedInOrder : { ones with pc := 256 }.inbox = [] ∧ { ones with pc := 256 }.runState = .run ∧
    ({ ones with pc := 256 } : State).pc.toNat = 256 ∧ (runningAt 0 0#32).pc.toNat < 256 ∧
    programWord (runningAt 0 0#32).pmem 0 = some 0#32 ∧ decode 0#32 = .error .reservedOpcode ∧
    programWord (runningAt 0 0x20000000#32).pmem 0 = some 0x20000000#32 ∧ decode 0x20000000#32 = .ok .dmul16 ∧
    operandsInRange .dmul16 (runningAt 0 0x20000000#32) = true ∧ operandsInRange .dmul16 badLane = false := by decide
theorem witness_RaisingAFaultRecordsItAndNothingElse : ones.runState = .run ∧
    ({ ones with pc := 256 } : State).nextEvent = .unitStep ∧ ∃ t, step { ones with pc := 256 } = .next t ∧ t.runState = .fault :=
  ⟨rfl, rfl, _, rfl, rfl⟩
theorem witness_OnlyAResetLeavesFault : (faultWith .unitStep).runState = .fault ∧
    (faultWith (.access (.write 32 0x800#12 1#32))).nextEvent.isReset = false ∧
    (faultWith (.access (.write 32 0x800#12 2#32))).nextEvent.isReset = true ∧
    (∃ t, step (faultWith (.access (.write 32 0x800#12 1#32))) = .next t) ∧
    (∃ t, step (faultWith (.access (.write 32 0x800#12 2#32))) = .next t) ∧
    ((faultWith (.access (.write 32 0x7FC#12 0#32))).nextEvent = .access (.write 32 0x7FC#12 0#32) ∧ (0x7FC#12 : BitVec 12).toNat < 0x800) ∧
    (faultWith (.access (.write 32 0x800#12 1#32))).nextEvent.isStart = true :=
  ⟨rfl, by decide, by decide, ⟨_, rfl⟩, ⟨_, rfl⟩, by decide, by decide⟩
theorem witness_StateTransitionsAreTheListedOnes : (idleWith .resetInput).nextEvent.isReset = true ∧
    (idleWith (.access (.write 32 0x800#12 1#32))).nextEvent.isStart = true ∧
    ((idleWith (.access (.write 32 0x804#12 3#32))).nextEvent.isReset = false ∧
      (idleWith (.access (.write 32 0x804#12 3#32))).nextEvent.isStart = false) ∧
    ((idleWith .unitStep).nextEvent = .unitStep ∧ (idleWith .unitStep).runState ≠ .run) ∧
    ((runningAt 0 0#32).nextEvent = .unitStep ∧ (runningAt 0 0#32).runState = .run) ∧
    (∃ t, step (idleWith .resetInput) = .next t) ∧ (∃ t, step (runningAt 0 0#32) = .next t) :=
  ⟨rfl, by decide, by decide, by decide, by decide, ⟨_, rfl⟩, _, rfl⟩
theorem empty_wholeWords : Memory.wholeWords [] := fun _ _ => rfl
theorem runningAt_inv : (runningAt 255 0x20000000#32).Inv :=
  ⟨by decide, by decide, writeProgramWord_wf ⟨List.Pairwise.nil, by simp⟩ (by decide) _, writeProgramWord_wholeWords empty_wholeWords 255 _⟩
theorem runningAt_written : (runningAt 255 0x20000000#32).programWritten := by
  intro a h
  have h : 255 ≤ a.val := h
  obtain rfl : a = 255 := Fin.ext (by have := a.isLt; show a.val = 255; omega)
  decide
theorem witness_EveryRunEndsWithin257Steps : (runningAt 255 0x20000000#32).Inv ∧ (runningAt 255 0x20000000#32).inbox = [] ∧
    (runningAt 255 0x20000000#32).runState = .run ∧ (runningAt 255 0x20000000#32).programWritten :=
  ⟨runningAt_inv, rfl, rfl, runningAt_written⟩
theorem witness_ResetLeavesTheListedValues : (faultWith .resetInput).nextEvent.isReset = true ∧
    (faultWith (.access (.write 32 0x800#12 0xFFFFFFFF#32))).nextEvent.isReset = true ∧
    (faultWith (.powerOn ones.v)).nextEvent.isReset = true := ⟨rfl, by decide, rfl⟩
theorem witness_PowerOnLeavesTheStorageOpen : (faultWith (.powerOn ones.v)).nextEvent = .powerOn ones.v := rfl
/-- EveryStepKeepsTheInvariant, StepsOnlyStopAtUnwrittenWords. -/
theorem witness_invariant : (runningAt 255 0x20000000#32).Inv ∧ (∃ t, step (runningAt 255 0x20000000#32) = .next t) :=
  ⟨runningAt_inv, _, rfl⟩
theorem witness_RefusedAccessesAreTheListedOnes : (idleWith (.access (.read 16 0#12))).nextEvent = .access (.read 16 0#12) ∧
    windowRead (idleWith (.access (.read 16 0#12))) 16 0#12 = some .refused ∧
    (idleWith (.access (.write 32 0x804#12 0#32))).nextEvent = .access (.write 32 0x804#12 0#32) ∧
    (windowWrite (idleWith (.access (.write 32 0x804#12 0#32))) 32 0x804#12 0#32).2 = .refused := by decide
/-- The first and the last lane; each state a clause speaks of. -/
theorem witness_WindowReachesEveryLane : (0x000#12 : BitVec 12).toNat = 32 * (0 : VReg).val + 4 * (0 : Fin 8).val ∧
    (0x3FC#12 : BitVec 12).toNat = 32 * (31 : VReg).val + 4 * (7 : Fin 8).val ∧
    (idleWith (.access (.write 32 0x3FC#12 5#32))).nextEvent = .access (.write 32 0x3FC#12 5#32) ∧
    (idleWith (.access (.read 32 0x3FC#12))).runState ≠ .run ∧ (pending ones (.access (.read 32 0#12))).runState = .run ∧
    (faultWith (.access (.write 32 0#12 5#32))).runState = .fault := by decide
/-- The first and the last program word; a word that was written. -/
theorem witness_WindowReachesEveryProgramWord : (0x400#12 : BitVec 12).toNat = 0x400 + 4 * 0 ∧ (0x7FC#12 : BitVec 12).toNat = 0x400 + 4 * 255 ∧
    programWord haltLoaded.pmem 0 = some 0xFC000000#32 ∧ (pending haltLoaded (.access (.read 32 0x400#12))).runState ≠ .run ∧
    (pending haltLoaded (.access (.read 32 0x400#12))).nextEvent = .access (.read 32 0x400#12) := by decide
theorem witness_CtrlWriteResetsOrStarts : (idleWith (.access (.write 32 0x800#12 3#32))).nextEvent = .access (.write 32 0x800#12 3#32) ∧
    (3#32 : Word).getLsbD 1 = true ∧ (1#32 : Word).getLsbD 1 = false ∧ (1#32 : Word).getLsbD 0 = true ∧
    (0xFFFFFFFC#32 : Word).getLsbD 1 = false ∧ (0xFFFFFFFC#32 : Word).getLsbD 0 = false := by decide
/-- StatusReadsStateAndCause, OutputsFollowState: the invariant in each of the four states. -/
theorem witness_status : State.reset.Inv ∧ ones.Inv ∧ ({ ones with runState := .halted } : State).Inv ∧ (ones.raise .operandRange).Inv ∧
    (idleWith (.access (.read 32 0x804#12))).nextEvent = .access (.read 32 0x804#12) :=
  ⟨⟨by decide, by decide, by decide, empty_wholeWords⟩, ⟨by decide, by decide, by decide, empty_wholeWords⟩,
    ⟨by decide, by decide, by decide, empty_wholeWords⟩, ⟨by decide, by decide, by decide, empty_wholeWords⟩, rfl⟩
theorem witness_PcIsReadAndWrittenThroughTheWindow : (idleWith (.access (.read 32 0x808#12))).nextEvent = .access (.read 32 0x808#12) ∧
    (idleWith (.access (.write 32 0x808#12 0x105#32))).nextEvent = .access (.write 32 0x808#12 0x105#32) ∧
    (idleWith .unitStep).runState = .idle ∧ (faultWith .unitStep).runState = .fault := by decide
theorem witness_ReadsHaveNoSideEffect : (idleWith (.access (.read 32 0x3FC#12))).nextEvent = .access (.read 32 0x3FC#12) ∧
    ∃ t, step (idleWith (.access (.read 32 0x3FC#12))) = .next t := ⟨rfl, _, rfl⟩
theorem witness_OnlyTheHostWritesTheProgramStore : ∃ t, step (idleWith (.access (.write 32 0x400#12 1#32))) = .next t ∧
    t.pmem ≠ (idleWith (.access (.write 32 0x400#12 1#32))).pmem := ⟨_, rfl, by decide⟩
theorem witness_RegistersPersistOutsideRun : (idleWith (.access (.write 32 0x020#12 1#32))).runState ≠ .run ∧
    ∃ t, step (idleWith (.access (.write 32 0x020#12 1#32))) = .next t ∧
      t.v[(1 : VReg)] ≠ (idleWith (.access (.write 32 0x020#12 1#32))).v[(1 : VReg)] := ⟨by decide, _, rfl, by decide⟩

end Sys2Proof.Tests
end

section
/-! PROOFS. The operand ranges as sets of unsigned words (00_scope.md R3, R4), and the independence of the SIMD lanes (R7). -/

namespace Sys2Proof.Machine

/-! ### The operand ranges (R3, R4). -/

/-- R4 on unsigned words: below `P`, or above `NEGLIM`. -/
theorem srange_iff_toNat (w : Word) : srange w = true ↔ w.toNat < Config.P ∨ Config.negLim < w.toNat := by
  rw [srange_iff, s32]
  simp only [Config.P, Config.negLim]
  split <;> omega

/-- Settles O6. Both ranges are bounds on `w.toNat`, and `P - 1` = 0x7F000000, `NEGLIM + 1` = 0x81000000. -/
theorem operandRangesAsUnsignedSets : Obligations.OperandRangesAsUnsignedSets := by
  intro w
  refine ⟨?_, srange_iff w, srange_iff_toNat w, ?_, fun lo hi => ⟨?_, ?_⟩⟩
  all_goals
    simp only [← Bool.not_eq_true, canon_iff, srange_iff_toNat, Config.P, Config.negLim]
    omega

/-! ### The registers a completed instruction leaves. -/

/-- The registers R93 leaves for one source register. -/
def unaryRegs (f : Word → Word) (vd va : VReg) (v : RegFile) : RegFile := v.set vd.val (lanes1 f v[va]) vd.isLt

/-- The registers R93 leaves for two source registers. -/
def binaryRegs (f : Word → Word → Word) (vd va vb : VReg) (v : RegFile) : RegFile :=
  v.set vd.val (lanes2 f v[va] v[vb]) vd.isLt

/-- The registers DMUL leaves (R106, R107). -/
def dmulRegs (w : Width) (v : RegFile) : RegFile := mapState w (fun r x => lanes1 (dk r.kind) x) v

/-- The registers a macro instruction with a sum leaves: `f` of its row, the sum's lane and its own old lane in every processed position. -/
def sumRegs (f : DiagRow → Word → Word → Word) (w : Width) (vs : VReg) (v : RegFile) : RegFile :=
  mapState w (fun r x => lanes2 (f r) v[vs] x) v

/-- What ASUM does with the words of one lane (R105). -/
def asumLane (r : DiagRow) : Word → Word → Word := ag r.group

/-- What DLIN does with the words of one lane (R114, R115). -/
def dlinLane (r : DiagRow) (sum x : Word) : Word := ag r.group sum (dk r.kind x)

/-- The registers an instruction leaves when it completes; `exec_of_operandsInRange` ties it to `exec`. -/
def resultRegs : Instr → RegFile → RegFile
  | .vadd vd va vb => binaryRegs fadd vd va vb
  | .vsub vd va vb => binaryRegs fsub vd va vb
  | .vsadd vd va vb => binaryRegs fsadd vd va vb
  | .vhalve vd va => unaryRegs fhalve vd va
  | .vmul2k vd va k => unaryRegs (fun a => fmul2k a k) vd va
  | .vnmul2k vd va k => unaryRegs (fun a => fnmul2k a k) vd va
  | .dmul16 => dmulRegs .w16
  | .dmul24 => dmulRegs .w24
  | .asum16 vs => sumRegs asumLane .w16 vs
  | .asum24 vs => sumRegs asumLane .w24 vs
  | .dlin16 vs => sumRegs dlinLane .w16 vs
  | .dlin24 vs => sumRegs dlinLane .w24 vs
  | .halt => id

theorem dmul_of_canonRegs {w : Width} {s : State} (h : s.canonRegs 1 (w.positions - 1)) :
    s.dmul w = s.completed (dmulRegs w s.v) :=
  dmul_ok ((canonState_iff w s).mpr h)

theorem asum_of_ranges {w : Width} {vs : VReg} {s : State}
    (h : s.canonReg vs ∧ s.canonRegs 1 8 ∧ s.signedRegs 9 (w.positions - 1)) :
    s.asum w vs = s.completed (sumRegs asumLane w vs s.v) :=
  asum_ok h.1 ((groupState_iff w s).mpr h.2)

theorem dlin_of_canonRegs {w : Width} {vs : VReg} {s : State} (h : s.canonReg vs ∧ s.canonRegs 1 (w.positions - 1)) :
    s.dlin w vs = s.completed (sumRegs dlinLane w vs s.v) :=
  dlin_ok h.1 ((canonState_iff w s).mpr h.2)

/-- A well-formed instruction other than HALT whose operands are in range (R142) completes with the registers `resultRegs` names. -/
theorem exec_of_operandsInRange {i : Instr} {s : State} (hw : i.wellFormed = true) (hr : operandsInRange i s = true)
    (hi : i ≠ .halt) : exec i s = .next (s.completed (resultRegs i s.v)) := by
  cases i with
  | vadd vd _ _ | vsub vd _ _ | vsadd vd _ _ =>
    obtain ⟨ha, hb⟩ := of_decide_eq_true hr
    exact congrArg Host.Outcome.next (binary_ok _ vd ha hb)
  | vhalve vd _ => exact congrArg Host.Outcome.next (unary_ok _ vd (of_decide_eq_true hr))
  | vmul2k vd _ _ | vnmul2k vd _ _ =>
    exact congrArg Host.Outcome.next ((legal_ok s hw _).trans (unary_ok _ vd (of_decide_eq_true hr)))
  | dmul16 | dmul24 => exact congrArg Host.Outcome.next (dmul_of_canonRegs (of_decide_eq_true hr))
  | asum16 _ | asum24 _ =>
    exact congrArg Host.Outcome.next ((legal_ok s hw _).trans (asum_of_ranges (of_decide_eq_true hr)))
  | dlin16 _ | dlin24 _ =>
    exact congrArg Host.Outcome.next ((legal_ok s hw _).trans (dlin_of_canonRegs (of_decide_eq_true hr)))
  | halt => exact absurd rfl hi

/-- HALT included: the registers of a completed instruction. -/
theorem regs_of_operandsInRange {i : Instr} {s t : State} (hw : i.wellFormed = true) (hr : operandsInRange i s = true)
    (h : exec i s = .next t) : t.v = resultRegs i s.v := by
  by_cases hi : i = .halt
  · subst hi
    obtain rfl := Host.Outcome.next.inj h
    rfl
  · obtain rfl := Host.Outcome.next.inj ((exec_of_operandsInRange hw hr hi).symm.trans h)
    rfl

/-! ### Lanes are independent (R7). -/

/-- Lane `l` of every register of `v` holds what lane `l'` of that register of `v'` holds. -/
def LanesAgree (l l' : Fin 8) (v v' : RegFile) : Prop := ∀ n : VReg, v[n][l] = v'[n][l']

section
variable {l l' : Fin 8} {v v' : RegFile}

theorem lanes1_agree (f : Word → Word) {x x' : LaneVec} (h : x[l] = x'[l']) : (lanes1 f x)[l] = (lanes1 f x')[l'] := by
  simp only [Fin.getElem_fin, lanes1_lane] at h ⊢
  rw [h]

theorem lanes2_agree (f : Word → Word → Word) {x x' y y' : LaneVec} (hx : x[l] = x'[l']) (hy : y[l] = y'[l']) :
    (lanes2 f x y)[l] = (lanes2 f x' y')[l'] := by
  simp only [Fin.getElem_fin, lanes2_lane] at hx hy ⊢
  rw [hx, hy]

theorem LanesAgree.set (h : LanesAgree l l' v v') (d : VReg) {x x' : LaneVec} (hx : x[l] = x'[l']) :
    LanesAgree l l' (v.set d.val x d.isLt) (v'.set d.val x' d.isLt) := by
  intro n
  by_cases hn : n = d
  · subst hn
    simpa using hx
  · rw [frame_set v d n x (decide_eq_false hn), frame_set v' d n x' (decide_eq_false hn)]
    exact h n

theorem LanesAgree.mapState (h : LanesAgree l l' v v') (w : Width) {f f' : DiagRow → LaneVec → LaneVec}
    (hf : ∀ r x x', x[l] = x'[l'] → (f r x)[l] = (f' r x')[l']) :
    LanesAgree l l' (mapState w f v) (mapState w f' v') := by
  intro n
  cases hr : row w n.val with
  | none =>
    rw [mapState_other hr, mapState_other hr]
    exact h n
  | some r =>
    rw [mapState_row hr, mapState_row hr]
    exact hf r _ _ (h n)

theorem LanesAgree.unaryRegs (h : LanesAgree l l' v v') (f : Word → Word) (vd va : VReg) :
    LanesAgree l l' (unaryRegs f vd va v) (unaryRegs f vd va v') :=
  h.set vd (lanes1_agree f (h va))

theorem LanesAgree.binaryRegs (h : LanesAgree l l' v v') (f : Word → Word → Word) (vd va vb : VReg) :
    LanesAgree l l' (binaryRegs f vd va vb v) (binaryRegs f vd va vb v') :=
  h.set vd (lanes2_agree f (h va) (h vb))

theorem LanesAgree.dmulRegs (h : LanesAgree l l' v v') (w : Width) : LanesAgree l l' (dmulRegs w v) (dmulRegs w v') :=
  h.mapState w fun r _ _ => lanes1_agree (dk r.kind)

theorem LanesAgree.sumRegs (h : LanesAgree l l' v v') (f : DiagRow → Word → Word → Word) (w : Width) (vs : VReg) :
    LanesAgree l l' (sumRegs f w vs v) (sumRegs f w vs v') :=
  h.mapState w fun r _ _ => lanes2_agree (f r) (h vs)

theorem LanesAgree.resultRegs (h : LanesAgree l l' v v') (i : Instr) :
    LanesAgree l l' (resultRegs i v) (resultRegs i v') := by
  cases i with
  | vadd vd va vb | vsub vd va vb | vsadd vd va vb => exact h.binaryRegs _ vd va vb
  | vhalve vd va | vmul2k vd va _ | vnmul2k vd va _ => exact h.unaryRegs _ vd va
  | dmul16 | dmul24 => exact h.dmulRegs _
  | asum16 vs | asum24 vs | dlin16 vs | dlin24 vs => exact h.sumRegs _ _ vs
  | halt => exact h

end

/-- Settles O35: every instruction's result registers (`resultRegs`) agree in the lanes in which its operands do. -/
theorem simdLanesAreIndependent : Obligations.SimdLanesAreIndependent := by
  intro i l l' s s' t t' hw hr hr' hv ht ht' n
  rw [regs_of_operandsInRange hw hr ht, regs_of_operandsInRange hw hr' ht']
  exact LanesAgree.resultRegs hv i n

end Sys2Proof.Machine
end

section
/-! PROOFS. What a step can do, one case per kind of event, and the invariant every step keeps (10_state.md R24, R28). -/

namespace Sys2Proof.Machine

/-! ### Inversion of a step. -/

/-- The shapes of a step's next state, by the event that is next. -/
inductive StepShape (s : State) : State → Prop
  /-- The sequencer's turn (R130). -/
  | turn {t : State} (he : s.nextEvent = .unitStep) (ht : TurnShape s.taken t) : StepShape s t
  /-- A host read and its answer. -/
  | read (width : Nat) (offset : BitVec 12) (r : Reply) (he : s.nextEvent = .access (.read width offset))
      (hr : windowRead s.taken width offset = some r) : StepShape s (s.taken.reply r)
  /-- A host write and its answer. -/
  | write (width : Nat) (offset : BitVec 12) (w : Word) (he : s.nextEvent = .access (.write width offset w)) :
      StepShape s ((windowWrite s.taken width offset w).1.reply (windowWrite s.taken width offset w).2)
  /-- The reset input (R160). -/
  | resetInput (he : s.nextEvent = .resetInput) : StepShape s s.taken.resetControl
  /-- Power-on (R160). -/
  | powerOn (regs : RegFile) (he : s.nextEvent = .powerOn regs) : StepShape s (s.taken.powerOn regs)

theorem step_shape {s t : State} (h : step s = .next t) : StepShape s t := by
  rw [step_eq] at h
  cases he : s.nextEvent with
  | unitStep =>
    rw [he] at h
    exact .turn he (sequencerTurn_shape h)
  | access a =>
    rw [he] at h
    obtain ⟨width, offset, r, rfl, hr, rfl⟩ | ⟨width, offset, w, rfl, rfl⟩ := hostAccess_next h
    · exact .read width offset r he hr
    · exact .write width offset w he
  | resetInput =>
    rw [he] at h
    obtain rfl := Host.Outcome.next.inj h
    exact .resetInput he
  | powerOn regs =>
    rw [he] at h
    obtain rfl := Host.Outcome.next.inj h
    exact .powerOn regs he

/-! ### The invariant, operation by operation. -/

theorem Memory.wf_nil : Memory.wf [] := ⟨List.Pairwise.nil, by simp⟩

theorem Memory.wholeWords_nil : Memory.wholeWords [] := fun _ _ => rfl

theorem toNat_succ_of_lt {pc : BitVec 9} (h : pc.toNat < 256) : (pc + 1#9).toNat = pc.toNat + 1 := by
  simp only [BitVec.toNat_add, BitVec.toNat_ofNat]
  omega

section
variable {s t : State}

/-- A unit that meets the invariant and is not in FAULT has CAUSE = 0 (R28). -/
theorem State.Inv.cause_none (h : s.Inv) (hr : s.runState ≠ .fault) : s.cause = none :=
  Decidable.not_not.mp (mt h.2.1.mp hr)

theorem State.Inv.raise (h : s.Inv) (f : UnitFault) : (s.raise f).Inv := by
  obtain ⟨hpc, -, hwf, hwhole⟩ := h
  exact ⟨hpc, by simp, hwf, hwhole⟩

theorem State.Inv.resetControl (h : s.Inv) : s.resetControl.Inv := by
  obtain ⟨-, -, hwf, hwhole⟩ := h
  exact ⟨by simp, by simp, hwf, hwhole⟩

theorem State.powerOn_inv (s : State) (regs : RegFile) : (s.powerOn regs).Inv :=
  ⟨by simp, by simp, Memory.wf_nil, Memory.wholeWords_nil⟩

/-- STATE may move between the values other than FAULT. -/
theorem State.Inv.setRunState (h : s.Inv) (hs : s.runState ≠ .fault) {r : RunState} (hr : r ≠ .fault) :
    ({ s with runState := r } : State).Inv := by
  have hc := h.cause_none hs
  obtain ⟨hpc, -, hwf, hwhole⟩ := h
  exact ⟨hpc, by simp [hc, hr], hwf, hwhole⟩

theorem State.Inv.writeShape (h : s.Inv) {p : State × Reply} (hp : WriteShape s p) : p.1.Inv := by
  cases hp with
  | refused | ignored => exact h
  | lane n l w _ => exact h
  | program a w ha _ =>
    obtain ⟨hpc, hcause, hwf, hwhole⟩ := h
    exact ⟨hpc, hcause, writeProgramWord_wf hwf ha w, writeProgramWord_wholeWords hwhole a w⟩
  | reset => exact h.resetControl
  | start hr => exact h.setRunState (by rcases hr with hr | hr <;> simp [hr]) (by simp)
  | pc w _ =>
    obtain ⟨-, hrest⟩ := h
    refine ⟨?_, hrest⟩
    simp only [BitVec.toNat_ofNat]
    omega

theorem State.Inv.execShape (h : s.Inv) (hr : s.runState = .run) (hp : s.pc.toNat < 256) {i : Instr} (ht : ExecShape i s t) :
    t.Inv := by
  cases ht with
  | illegal _ => exact h.raise _
  | range => exact h.raise _
  | halt _ => exact h.setRunState (by simp [hr]) (by simp)
  | done regs _ _ =>
    obtain ⟨-, hrest⟩ := h
    exact ⟨by rw [State.completed_pc, toNat_succ_of_lt hp]; omega, hrest⟩

theorem State.Inv.turnShape (h : s.Inv) (ht : TurnShape s t) : t.Inv := by
  cases ht with
  | still _ => exact h
  | overrun _ _ => exact h.raise _
  | illegal _ _ _ _ _ => exact h.raise _
  | ran hr _ i _ _ hp _ ht => exact h.execShape hr hp (exec_next_shape ht)

end

/-- Settles O47: each kind of event keeps the invariant; `pc` moves on only from an index that addresses a word. -/
theorem everyStepKeepsTheInvariant : Obligations.EveryStepKeepsTheInvariant := by
  intro s t h hstep
  have h : s.taken.Inv := h
  cases step_shape hstep with
  | turn _ ht => exact h.turnShape ht
  | read _ _ _ _ _ => exact h
  | write width offset w _ => exact h.writeShape (windowWrite_shape s.taken width offset w)
  | resetInput _ => exact h.resetControl
  | powerOn regs _ => exact s.taken.powerOn_inv regs

/-- Settles O46. -/
theorem resetMeetsTheInvariant : Obligations.ResetMeetsTheInvariant :=
  ⟨⟨by simp, by simp, Memory.wf_nil, Memory.wholeWords_nil⟩, rfl, rfl, rfl⟩

end Sys2Proof.Machine
end

section
/-! PROOFS. What executing an instruction leaves unchanged, where it leaves `pc` (10_state.md R21, R25 to R27), and that DMUL, ASUM and
DLIN ignore the registers they do not name (R23; 41_diagonal_layer.md R104). -/

namespace Sys2Proof.Machine

/-! ### The frame. -/

section
variable {i : Instr} {s t : State}

theorem ExecShape.frame_reg (h : ExecShape i s t) {n : VReg} (hn : writesReg i n = false) : t.v[n] = s.v[n] := by
  cases h with
  | illegal _ | range | halt _ => rfl
  | done _ _ frame => exact frame n hn

theorem ExecShape.pmem (h : ExecShape i s t) : t.pmem = s.pmem := by cases h <;> rfl

theorem ExecShape.inbox (h : ExecShape i s t) : t.inbox = s.inbox := by cases h <;> rfl

theorem ExecShape.replies (h : ExecShape i s t) : t.replies = s.replies := by cases h <;> rfl

/-- CAUSE changes only where a fault is raised (R146). -/
theorem ExecShape.cause (h : ExecShape i s t) : t.cause = s.cause ∨ (t.runState = .fault ∧ t.v = s.v ∧ t.pc = s.pc) := by
  cases h with
  | illegal _ | range => exact .inr ⟨rfl, rfl, rfl⟩
  | halt _ | done _ _ _ => exact .inl rfl

end

/-- Settles O33: each clause holds of the four shapes of an instruction's outcome. -/
theorem execChangesOnlyItsDestinations : Obligations.ExecChangesOnlyItsDestinations := by
  intro i s t h
  have shape := exec_next_shape h
  exact ⟨fun n => shape.frame_reg, fun a => by rw [shape.pmem], shape.pmem, shape.inbox, shape.replies, shape.cause⟩

/-! ### An operand out of range. -/

section
variable {s : State} {w : Width} {va vb vs : VReg}

/-- A check that is equivalent to a condition fails with it. -/
theorem checked_of_not {inRange : Bool} {p : Prop} (hp : inRange = true ↔ p) (h : ¬p) (t : State) :
    s.checked inRange t = s.raise .operandRange :=
  checked_bad s (Bool.eq_false_iff.mpr (mt hp.mp h)) t

theorem unary_of_not_canonReg (f : Word → Word) (vd : VReg) (h : ¬s.canonReg va) :
    s.unary f vd va = s.raise .operandRange :=
  checked_of_not (allLanes_iff canon s.v[va]) h _

theorem binary_of_not_ranges {range : Word → Bool} (f : Word → Word → Word) (vd : VReg)
    (h : ¬(s.canonReg va ∧ ∀ l : Fin 8, range s.v[vb][l] = true)) : s.binary range f vd va vb = s.raise .operandRange :=
  checked_of_not (Bool.and_eq_true_iff.trans (and_congr (allLanes_iff canon s.v[va]) (allLanes_iff range s.v[vb]))) h _

theorem dmul_of_not_canonRegs (h : ¬s.canonRegs 1 (w.positions - 1)) : s.dmul w = s.raise .operandRange :=
  checked_of_not (canonState_iff w s) h _

theorem asum_of_not_ranges (h : ¬(s.canonReg vs ∧ s.canonRegs 1 8 ∧ s.signedRegs 9 (w.positions - 1))) :
    s.asum w vs = s.raise .operandRange :=
  checked_of_not (Bool.and_eq_true_iff.trans (and_congr (allLanes_iff canon s.v[vs]) (groupState_iff w s))) h _

theorem dlin_of_not_canonRegs (h : ¬(s.canonReg vs ∧ s.canonRegs 1 (w.positions - 1))) :
    s.dlin w vs = s.raise .operandRange :=
  checked_of_not (Bool.and_eq_true_iff.trans (and_congr (allLanes_iff canon s.v[vs]) (canonState_iff w s))) h _

end

/-- A well-formed instruction with an operand out of range (R142) raises OperandRange. -/
theorem exec_of_not_operandsInRange {i : Instr} {s : State} (hw : i.wellFormed = true) (hr : operandsInRange i s = false) :
    exec i s = .next (s.raise .operandRange) := by
  cases i with
  | vadd vd _ _ | vsub vd _ _ | vsadd vd _ _ =>
    exact congrArg Host.Outcome.next (binary_of_not_ranges _ vd (of_decide_eq_false hr))
  | vhalve vd _ => exact congrArg Host.Outcome.next (unary_of_not_canonReg _ vd (of_decide_eq_false hr))
  | vmul2k vd _ _ | vnmul2k vd _ _ =>
    exact congrArg Host.Outcome.next ((legal_ok s hw _).trans (unary_of_not_canonReg _ vd (of_decide_eq_false hr)))
  | dmul16 | dmul24 => exact congrArg Host.Outcome.next (dmul_of_not_canonRegs (of_decide_eq_false hr))
  | asum16 _ | asum24 _ =>
    exact congrArg Host.Outcome.next ((legal_ok s hw _).trans (asum_of_not_ranges (of_decide_eq_false hr)))
  | dlin16 _ | dlin24 _ =>
    exact congrArg Host.Outcome.next ((legal_ok s hw _).trans (dlin_of_not_canonRegs (of_decide_eq_false hr)))
  | halt => cases hr

/-! ### Where pc is left (R25). -/

/-- A running unit whose `pc` is past the end raises PcOverrun (R143). -/
theorem step_overrun {s : State} (hi : s.inbox = []) (hr : s.runState = .run) (hp : s.pc.toNat = 256) :
    step s = .next (s.raise .pcOverrun) := by
  rw [step_eq, nextEvent_nil hi, taken_nil hi]
  exact sequencerTurn_overrun hr (fetch_overrun hp)

section
variable {i : Instr} {s t : State}

theorem pc_of_exec_completed (hw : i.wellFormed = true) (hr : operandsInRange i s = true) (hi : i ≠ .halt)
    (h : exec i s = .next t) : t.pc = s.pc + 1 := by
  obtain rfl := Host.Outcome.next.inj ((exec_of_operandsInRange hw hr hi).symm.trans h)
  rfl

theorem pc_of_exec_halted_or_faulted (hw : i.wellFormed = true) (hr : i = .halt ∨ operandsInRange i s = false)
    (h : exec i s = .next t) : t.pc = s.pc := by
  rcases hr with rfl | hr
  · obtain rfl := Host.Outcome.next.inj h
    rfl
  · obtain rfl := Host.Outcome.next.inj ((exec_of_not_operandsInRange hw hr).symm.trans h)
    rfl

end

/-- Settles O34: the last clause is a completed instruction's `pc`, 255 + 1 in 9 bits, and the overrun of the next fetch. -/
theorem pcAdvancesByOneAndNeverWraps : Obligations.PcAdvancesByOneAndNeverWraps := by
  refine ⟨fun i s t hw h => ⟨fun hr hi => pc_of_exec_completed hw hr hi h, fun hr => pc_of_exec_halted_or_faulted hw hr h⟩,
    fun s f => rfl, ?_⟩
  intro i s t hw hr hi hrun hin hp h
  obtain rfl := Host.Outcome.next.inj ((exec_of_operandsInRange hw hr hi).symm.trans h)
  have hpc : (s.completed (resultRegs i s.v)).pc.toNat = 256 := by
    rw [State.completed_pc, toNat_succ_of_lt (by omega), hp]
  exact ⟨hpc, step_overrun hin hrun hpc⟩

/-! ### The registers DMUL, ASUM and DLIN do not read. -/

section
variable {w : Width} {n vs : VReg}

theorem checked_writeV (s t : State) (b : Bool) (n : VReg) (x : LaneVec) :
    (s.writeV n x).checked b (t.writeV n x) = (s.checked b t).writeV n x := by
  cases b <;> rfl

theorem legal_writeV (s t : State) (b : Bool) (n : VReg) (x : LaneVec) :
    (s.writeV n x).legal b (t.writeV n x) = (s.legal b t).writeV n x := by
  cases b <;> rfl

/-- The check on the state registers (R116 (2)) does not look at a register without a row. -/
theorem stateInRange_set (h : row w n.val = none) (range : DiagRow → Word → Bool) (v : RegFile) (x : LaneVec) :
    stateInRange w range (v.set n.val x n.isLt) = stateInRange w range v := by
  rw [Bool.eq_iff_iff, stateInRange_iff, stateInRange_iff]
  refine forall_congr' fun m => forall_congr' fun r => imp_congr_right fun hr => ?_
  have hm : m ≠ n := by
    rintro rfl
    simp [h] at hr
  rw [frame_set v n m x (decide_eq_false hm)]

/-- The write of the state registers (R116 (4)) carries a register without a row along. -/
theorem mapState_set (h : row w n.val = none) (f : DiagRow → LaneVec → LaneVec) (v : RegFile) (x : LaneVec) :
    mapState w f (v.set n.val x n.isLt) = (mapState w f v).set n.val x n.isLt := by
  refine regFile_ext fun m => ?_
  by_cases hm : m = n
  · subst hm
    rw [mapState_other h]
    simp
  · rw [frame_set _ n m x (decide_eq_false hm)]
    cases hr : row w m.val with
    | none => rw [mapState_other hr, mapState_other hr, frame_set v n m x (decide_eq_false hm)]
    | some r => rw [mapState_row hr, mapState_row hr, frame_set v n m x (decide_eq_false hm)]

/-- A register outside `v1 .. v[WIDTH-1]` has no row. -/
theorem row_none_of_not_processed (h : ¬(1 ≤ n.val ∧ n.val ≤ w.positions - 1)) : row w n.val = none :=
  (row_none_iff w n).mpr (by cases w <;> simp only [Width.positions] at * <;> omega)

theorem dmul_writeV (s : State) (h : ¬(1 ≤ n.val ∧ n.val ≤ w.positions - 1)) (x : LaneVec) :
    (s.writeV n x).dmul w = (s.dmul w).writeV n x := by
  have hn := row_none_of_not_processed h
  simp only [State.dmul, State.writeV_v, stateInRange_set hn, mapState_set hn]
  exact checked_writeV s (s.completed _) _ n x

theorem asum_writeV (s : State) (h : ¬(n = vs ∨ (1 ≤ n.val ∧ n.val ≤ w.positions - 1))) (x : LaneVec) :
    (s.writeV n x).asum w vs = (s.asum w vs).writeV n x := by
  obtain ⟨hs, hn⟩ := not_or.mp h
  have hs := frame_set s.v n vs x (decide_eq_false (Ne.symm hs))
  have hn := row_none_of_not_processed hn
  simp only [State.asum, State.readV_eq, State.writeV_v, hs, stateInRange_set hn, mapState_set hn]
  exact checked_writeV s (s.completed _) _ n x

theorem dlin_writeV (s : State) (h : ¬(n = vs ∨ (1 ≤ n.val ∧ n.val ≤ w.positions - 1))) (x : LaneVec) :
    (s.writeV n x).dlin w vs = (s.dlin w vs).writeV n x := by
  obtain ⟨hs, hn⟩ := not_or.mp h
  have hs := frame_set s.v n vs x (decide_eq_false (Ne.symm hs))
  have hn := row_none_of_not_processed hn
  simp only [State.dlin, State.readV_eq, State.writeV_v, hs, stateInRange_set hn, mapState_set hn]
  exact checked_writeV s (s.completed _) _ n x

end

/-- Settles O36: the check and the write of DMUL, ASUM and DLIN pass over a register without a row that does not hold the sum. -/
theorem macrosIgnoreOtherRegisters : Obligations.MacrosIgnoreOtherRegisters := by
  intro i n x s t hn h
  cases i with
  | dmul16 | dmul24 =>
    obtain rfl := Host.Outcome.next.inj h
    refine congrArg Host.Outcome.next (dmul_writeV s ?_ x)
    exact of_decide_eq_false hn
  | asum16 vs | asum24 vs =>
    obtain rfl := Host.Outcome.next.inj h
    refine congrArg Host.Outcome.next ((congrArg _ (asum_writeV s ?_ x)).trans (legal_writeV s _ _ n x))
    exact of_decide_eq_false hn
  | dlin16 vs | dlin24 vs =>
    obtain rfl := Host.Outcome.next.inj h
    refine congrArg Host.Outcome.next ((congrArg _ (dlin_writeV s ?_ x)).trans (legal_writeV s _ _ n x))
    exact of_decide_eq_false hn
  | vadd _ _ _ | vsub _ _ _ | vsadd _ _ _ | vhalve _ _ | vmul2k _ _ _ | vnmul2k _ _ _ | halt => cases hn

end Sys2Proof.Machine
end

section
/-! PROOFS. The host window access by access (20_memory.md R42 to R47): CTRL, STATUS and PC (10_state.md R30 to R32), and power-on (R36). -/

namespace Sys2Proof.Machine

/-! ### Host accesses. -/

/-- What a host write of `w` can do, and at which offset (R42 to R47). -/
inductive WriteEffect (s : State) (width : Nat) (offset : BitVec 12) (w : Word) : State × Reply → Prop
  | refused : WriteEffect s width offset w (s, .refused)
  | lane (n : VReg) (l : Fin 8) (hw : width = 32) (ht : target offset = .lane n l) (hl : s.runState = .idle ∨ s.runState = .halted) :
      WriteEffect s width offset w (s.writeLane n l w, .accepted)
  | program (a : Nat) (hw : width = 32) (ht : target offset = .program a) (hl : s.runState = .idle ∨ s.runState = .halted) :
      WriteEffect s width offset w ({ s with pmem := writeProgramWord s.pmem a w }, .accepted)
  | ctrl (hw : width = 32) (ho : offset = 0x800#12) : WriteEffect s width offset w (s.writeCtrl w, .accepted)
  | pc (hw : width = 32) (ht : target offset = .pc) (hl : s.runState = .idle ∨ s.runState = .halted) :
      WriteEffect s width offset w ({ s with pc := BitVec.ofNat 9 (w.toNat % 256) }, .accepted)

theorem wellShaped_width {width : Nat} {offset : BitVec 12} (h : wellShaped width offset = true) : width = 32 :=
  (of_decide_eq_true h).1

theorem target_ctrl {offset : BitVec 12} (h : target offset = .ctrl) : offset = 0x800#12 := by
  unfold target at h
  split at h
  · cases h
  · split at h
    · cases h
    · split at h
      · exact BitVec.eq_of_toNat_eq ‹_›
      · repeat' split at h
        all_goals cases h

theorem windowWrite_effect (s : State) (width : Nat) (offset : BitVec 12) (w : Word) :
    WriteEffect s width offset w (windowWrite s width offset w) := by
  unfold windowWrite
  split
  case isFalse => exact .refused
  case isTrue hshape =>
    have hw := wellShaped_width hshape
    split
    case h_3 ht => exact .ctrl hw (target_ctrl ht)
    case h_4 | h_6 => exact .refused
    case h_1 ht =>
      split
      · exact .lane _ _ hw ht ((loadable_iff _).mp ‹_›)
      · exact .refused
    case h_2 ht =>
      split
      · exact .program _ hw ht ((loadable_iff _).mp ‹_›)
      · exact .refused
    case h_5 ht =>
      split
      · exact .pc hw ht ((loadable_iff _).mp ‹_›)
      · exact .refused

/-- The only read without an answer is that of a program word nothing has written, with the unit not running (R33, R47). -/
theorem windowRead_eq_none {s : State} {width : Nat} {offset : BitVec 12} (h : windowRead s width offset = none) :
    width = 32 ∧ s.runState ≠ .run ∧ ∃ a, target offset = .program a ∧ programWord s.pmem a = none := by
  unfold windowRead at h
  split at h
  case isFalse => cases h
  case isTrue hshape =>
    split at h
    case h_2 a ht =>
      split at h
      · exact ⟨wellShaped_width hshape, (readable_iff _).mp ‹_›, a, ht, Option.map_eq_none_iff.mp h⟩
      · cases h
    all_goals cases h

theorem windowWrite_ctrl (s : State) (w : Word) : windowWrite s 32 0x800#12 w = (s.writeCtrl w, .accepted) := rfl

theorem windowWrite_pc (s : State) (w : Word) : windowWrite s 32 0x808#12 w =
    if s.runState.loadable then ({ s with pc := BitVec.ofNat 9 (w.toNat % 256) }, .accepted) else (s, .refused) := rfl

section
variable {s : State} {width : Nat} {offset : BitVec 12} {w : Word}

theorem step_read {r : Reply} (h : s.nextEvent = .access (.read width offset)) (hr : windowRead s.taken width offset = some r) :
    step s = .next (s.taken.reply r) := by
  rw [step_eq, h]
  simp only [takeEvent, hostAccess, hr]

theorem step_write (h : s.nextEvent = .access (.write width offset w)) :
    step s = .next ((windowWrite s.taken width offset w).1.reply (windowWrite s.taken width offset w).2) := by
  rw [step_eq, h]
  rfl

/-! ### CTRL (R30). -/

theorem writeCtrl_reset (h : w.getLsbD 1 = true) : s.writeCtrl w = s.resetControl := by simp [State.writeCtrl, h]

theorem writeCtrl_start (h1 : w.getLsbD 1 = false) (h0 : w.getLsbD 0 = true) (hs : s.runState = .idle ∨ s.runState = .halted) :
    s.writeCtrl w = { s with runState := .run } := by
  simp only [State.writeCtrl, h1, h0, (loadable_iff _).mpr hs, Bool.and_self, Bool.false_eq_true, if_false, if_true]

theorem loadable_eq_false_iff (r : RunState) : r.loadable = false ↔ r = .run ∨ r = .fault := by cases r <;> decide

theorem writeCtrl_ignored (h1 : w.getLsbD 1 = false) (h : w.getLsbD 0 = false ∨ s.runState = .run ∨ s.runState = .fault) :
    s.writeCtrl w = s := by
  have hstart : (w.getLsbD 0 && s.runState.loadable) = false :=
    Bool.and_eq_false_iff.mpr (h.imp id (loadable_eq_false_iff _).mpr)
  simp only [State.writeCtrl, h1, hstart, Bool.false_eq_true, if_false]

theorem step_writeCtrl (h : s.nextEvent = .access (.write 32 0x800#12 w)) :
    step s = .next ((s.taken.writeCtrl w).reply .accepted) := step_write h

end

/-- Settles O52. -/
theorem ctrlWriteResetsOrStarts : Obligations.CtrlWriteResetsOrStarts := by
  intro s w h
  rw [step_writeCtrl h]
  refine ⟨fun h1 => ?_, fun h1 h0 hs => ?_, fun h1 hs => ?_⟩
  · rw [writeCtrl_reset h1]
    rfl
  · rw [writeCtrl_start (s := s.taken) h1 h0 hs]
    rfl
  · rw [writeCtrl_ignored (s := s.taken) h1 hs]
    rfl

/-! ### STATUS (R31). -/

theorem RunState.code_le (r : RunState) : r.code ≤ 3 := by cases r <;> decide

theorem causeCode_le (c : Option UnitFault) : causeCode c ≤ 3 := by rcases c with - | (- | - | -) <;> decide

theorem toNat_statusWord (s : State) : (statusWord s).toNat = s.runState.code + causeCode s.cause * 16 := by
  have hr := s.runState.code_le
  have hc := causeCode_le s.cause
  simp only [statusWord, BitVec.toNat_ofNat]
  omega

/-- The six pairs of STATE and CAUSE the invariant admits (R28). -/
theorem State.Inv.control_cases {s : State} (h : s.Inv) :
    (s.runState = .idle ∧ s.cause = none) ∨ (s.runState = .run ∧ s.cause = none) ∨ (s.runState = .halted ∧ s.cause = none) ∨
    (s.runState = .fault ∧ s.cause = some .illegalInstruction) ∨ (s.runState = .fault ∧ s.cause = some .operandRange) ∨
    (s.runState = .fault ∧ s.cause = some .pcOverrun) := by
  obtain ⟨-, hcause, -⟩ := h
  cases hc : s.cause with
  | none =>
    have hr : s.runState ≠ .fault := fun h => hcause.mpr h hc
    cases hs : s.runState with
    | idle => exact .inl ⟨rfl, rfl⟩
    | run => exact .inr (.inl ⟨rfl, rfl⟩)
    | halted => exact .inr (.inr (.inl ⟨rfl, rfl⟩))
    | fault => exact absurd hs hr
  | some f =>
    have hr : s.runState = .fault := hcause.mp (by simp [hc])
    refine .inr (.inr (.inr ?_))
    cases f with
    | illegalInstruction => exact .inl ⟨hr, rfl⟩
    | operandRange => exact .inr (.inl ⟨hr, rfl⟩)
    | pcOverrun => exact .inr (.inr ⟨hr, rfl⟩)

/-- The STATUS word of a unit whose STATE and CAUSE are known. -/
theorem statusWord_of {s : State} {r : RunState} {c : Option UnitFault} (hr : s.runState = r) (hc : s.cause = c) :
    statusWord s = BitVec.ofNat 32 (r.code + causeCode c * 2 ^ 4) := by
  rw [statusWord, hr, hc]

/-- Settles O53: STATE and CAUSE have two bits each; the invariant leaves six of their sixteen pairs. -/
theorem statusReadsStateAndCause : Obligations.StatusReadsStateAndCause := by
  intro s
  have hstate := s.runState.code_le
  have hcause := causeCode_le s.cause
  have hword := toNat_statusWord s
  refine ⟨by rw [hword, Nat.shiftLeft_eq], by omega, fun h => step_read h rfl, fun h => ?_, fun h => ?_⟩
  · rcases h.control_cases with ⟨hr, hc⟩ | ⟨hr, hc⟩ | ⟨hr, hc⟩ | ⟨hr, hc⟩ | ⟨hr, hc⟩ | ⟨hr, hc⟩ <;>
      rw [statusWord_of hr hc] <;> decide
  · rcases h.control_cases with ⟨hr, hc⟩ | ⟨hr, hc⟩ | ⟨hr, hc⟩ | ⟨hr, hc⟩ | ⟨hr, hc⟩ | ⟨hr, hc⟩ <;>
      rw [statusWord_of hr hc, hr, hc] <;> decide

/-! ### PC (R32). -/

theorem toNat_pcWord (s : State) : (pcWord s).toNat = s.pc.toNat := by
  have := s.pc.isLt
  simp only [pcWord, BitVec.toNat_ofNat]
  omega

theorem toNat_pcOfWord (w : Word) : (BitVec.ofNat 9 (w.toNat % 256)).toNat = bits w 7 0 := by
  simp only [bits, BitVec.toNat_ofNat]
  omega

/-- Settles O54. -/
theorem pcIsReadAndWrittenThroughTheWindow : Obligations.PcIsReadAndWrittenThroughTheWindow := by
  intro s
  refine ⟨fun h => ⟨pcWord s, toNat_pcWord s, step_read h rfl⟩, fun w h => ⟨fun hs => ?_, fun hs => ?_⟩⟩
  · have hl : s.taken.runState.loadable = true := (loadable_iff _).mpr hs
    refine ⟨_, step_write h, ?_⟩
    rw [windowWrite_pc, if_pos hl]
    exact ⟨toNat_pcOfWord w, rfl⟩
  · have hl : ¬s.taken.runState.loadable = true := Bool.eq_false_iff.mp ((loadable_eq_false_iff _).mpr hs)
    rw [step_write h, windowWrite_pc, if_neg hl]
    rfl

/-! ### Power-on (R33, R36). -/

/-- Settles O45. -/
theorem powerOnLeavesTheStorageOpen : Obligations.PowerOnLeavesTheStorageOpen := by
  intro s regs h
  exact ⟨s.taken.powerOn regs, by rw [step_eq, h]; rfl, rfl, programWord_nil, rfl, rfl, rfl⟩

end Sys2Proof.Machine
end

section
/-! PROOFS. Where a step stops (10_state.md R33), who writes the program store (R26), and the transitions of STATE (R35). -/

namespace Sys2Proof.Machine

/-! ### Where a step stops (R33). -/

/-- The sequencer's turn in a state whose `pc` is in its range answers a next state, or stops at an unwritten word. -/
theorem sequencerTurn_next_or_unwritten {s : State} (h : s.pc.toNat ≤ 256) :
    (∃ t, sequencerTurn s = .next t) ∨
    (sequencerTurn s = .fault .unwrittenProgramWord ∧ s.runState = .run ∧ s.pc.toNat < 256 ∧
      programWord s.pmem s.pc.toNat = none) := by
  by_cases hr : s.runState = .run
  · obtain ⟨-, hf⟩ | ⟨hp, hw, hf⟩ | ⟨-, w, -, hf⟩ := fetch_cases h
    · exact .inl ⟨_, sequencerTurn_overrun hr hf⟩
    · exact .inr ⟨by simp [sequencerTurn, hr, hf], hr, hp, hw⟩
    · cases hd : decode w with
      | error r => exact .inl ⟨_, sequencerTurn_illegal hr hf hd⟩
      | ok i =>
        obtain ⟨t, ht, -⟩ := exec_shape i s
        exact .inl ⟨t, (sequencerTurn_exec hr hf hd).trans ht⟩
  · exact .inl ⟨s, sequencerTurn_stopped hr⟩

/-- Settles O48: of the events only the sequencer's turn and a host read can stop. -/
theorem stepsOnlyStopAtUnwrittenWords : Obligations.StepsOnlyStopAtUnwrittenWords := by
  intro s h
  rw [step_eq]
  cases he : s.nextEvent with
  | unitStep =>
    obtain ⟨hpc, -⟩ := h
    exact (sequencerTurn_next_or_unwritten (s := s.taken) hpc).imp id fun ⟨hstop, hword⟩ => ⟨hstop, .inl ⟨rfl, hword⟩⟩
  | access a =>
    cases a with
    | read width offset =>
      cases hr : windowRead s.taken width offset with
      | some r => exact .inl ⟨s.taken.reply r, by simp only [takeEvent, hostAccess, hr]⟩
      | none =>
        obtain ⟨rfl, -, a, ht, ha⟩ := windowRead_eq_none hr
        obtain ⟨-, lo, hi, rfl⟩ := target_program ht
        exact .inr ⟨by simp only [takeEvent, hostAccess, hr], .inr ⟨offset, rfl, lo, hi, ha⟩⟩
    | write width offset w => exact .inl ⟨_, rfl⟩
  | resetInput => exact .inl ⟨_, rfl⟩
  | powerOn regs => exact .inl ⟨_, rfl⟩

/-! ### Who writes the program store (R26). -/

theorem TurnShape.pmem {s t : State} (h : TurnShape s t) : t.pmem = s.pmem := by
  cases h with
  | still _ | overrun _ _ | illegal _ _ _ _ _ => rfl
  | ran _ _ _ _ _ _ _ ht => exact (exec_next_shape ht).pmem

theorem writeCtrl_pmem (s : State) (w : Word) : (s.writeCtrl w).pmem = s.pmem := by
  unfold State.writeCtrl
  split
  · rfl
  · split <;> rfl

/-- A host write that changes the program store is an accepted one into it (R43, R47). -/
theorem windowWrite_pmem_ne {s : State} {width : Nat} {offset : BitVec 12} {w : Word}
    (h : (windowWrite s width offset w).1.pmem ≠ s.pmem) :
    width = 32 ∧ 0x400 ≤ offset.toNat ∧ offset.toNat < 0x800 ∧ (s.runState = .idle ∨ s.runState = .halted) := by
  have effect := windowWrite_effect s width offset w
  generalize windowWrite s width offset w = p at h effect
  cases effect with
  | refused | lane _ _ _ _ _ | pc _ _ _ => exact absurd rfl h
  | ctrl _ _ => exact absurd (writeCtrl_pmem s w) h
  | program a hw ht hl =>
    obtain ⟨-, lo, hi, -⟩ := target_program ht
    exact ⟨hw, lo, hi, hl⟩

/-- Settles O57. -/
theorem onlyTheHostWritesTheProgramStore : Obligations.OnlyTheHostWritesTheProgramStore := by
  intro s t hstep h
  cases step_shape hstep with
  | turn _ ht => exact absurd ht.pmem h
  | read _ _ _ _ _ | resetInput _ => exact absurd rfl h
  | write width offset w he =>
    obtain ⟨rfl, hrest⟩ := windowWrite_pmem_ne (s := s.taken) h
    exact .inr ⟨offset, w, he, hrest⟩
  | powerOn regs he => exact .inl ⟨regs, he⟩

/-! ### The transitions of STATE (R35). -/

/-- The word of HALT (R132). -/
theorem decode_haltWord : decode 0xFC000000#32 = .ok .halt := by decide

/-- HALT has no other word. -/
theorem eq_haltWord_of_decode {w : Word} (h : decode w = .ok .halt) : w = 0xFC000000#32 := by
  obtain ⟨-, h⟩ | ⟨-, h⟩ | ⟨-, h⟩ | ⟨-, h⟩ | ⟨-, h⟩ | ⟨-, h⟩ | ⟨-, h⟩ | ⟨-, h⟩ | ⟨hop, h⟩ := decode_ok_cases h
  iterate 3 · cases (decodeR_ok h).2
  · cases (decodeU_ok h).2
  · obtain ⟨-, -, hi⟩ := decodeK_ok h
    split at hi <;> cases hi
  · obtain ⟨-, -, ⟨-, hi⟩ | ⟨-, hi⟩⟩ := decodeDmul_ok h <;> cases hi
  iterate 2 · obtain ⟨-, ⟨-, -, hi⟩ | ⟨-, -, hi⟩⟩ := decodeSum_ok h <;> cases hi
  · obtain ⟨hz, -⟩ := decodeZ_ok h
    have := w.isLt
    refine BitVec.eq_of_toNat_eq ?_
    simp only [bits, Nat.reducePow, Nat.reduceAdd, Nat.reduceSub, BitVec.toNat_ofNat] at *
    omega

/-- A write elsewhere than to CTRL keeps STATE. -/
theorem windowWrite_runState {s : State} {width : Nat} {offset : BitVec 12} {w : Word} (h : ¬(width = 32 ∧ offset = 0x800#12)) :
    (windowWrite s width offset w).1.runState = s.runState := by
  have effect := windowWrite_effect s width offset w
  generalize windowWrite s width offset w = p at effect
  cases effect with
  | refused | lane _ _ _ _ _ | program _ _ _ _ | pc _ _ _ => rfl
  | ctrl hw ho => exact absurd ⟨hw, ho⟩ h

/-- The sequencer's turn in RUN ends in one of three ways. -/
theorem TurnShape.run_cases {s t : State} (h : TurnShape s t) (hr : s.runState = .run) :
    (t.runState = .halted ∧ t.cause = s.cause ∧ t.pc = s.pc ∧ programWord s.pmem s.pc.toNat = some 0xFC000000#32) ∨
    (t.runState = .fault ∧ t.cause ≠ none ∧ (s.pc.toNat = 256 ∨ programWord s.pmem s.pc.toNat ≠ some 0xFC000000#32)) ∨
    (t.runState = .run ∧ t.cause = s.cause ∧ t.pc = s.pc + 1 ∧ programWord s.pmem s.pc.toNat ≠ some 0xFC000000#32) := by
  cases h with
  | still h => exact absurd hr h
  | overrun _ hp => exact .inr (.inl ⟨rfl, by simp, .inl hp⟩)
  | illegal _ w hw _ hd =>
    obtain ⟨r, hd⟩ := hd
    refine .inr (.inl ⟨rfl, by simp, .inr ?_⟩)
    rw [hw]
    rintro ⟨⟩
    cases hd.symm.trans decode_haltWord
  | ran _ w i t hw _ hd ht =>
    rw [hw]
    by_cases hi : i = .halt
    · subst hi
      obtain rfl := Host.Outcome.next.inj ht
      exact .inl ⟨rfl, rfl, rfl, congrArg some (eq_haltWord_of_decode hd)⟩
    · have hw : some w ≠ some 0xFC000000#32 := by
        rintro ⟨⟩
        exact hi (Except.ok.inj (hd.symm.trans decode_haltWord))
      cases exec_next_shape ht with
      | illegal _ | range => exact .inr (.inl ⟨rfl, by simp, .inr hw⟩)
      | halt h => exact absurd h hi
      | done regs _ _ => exact .inr (.inr ⟨hr, rfl, rfl, hw⟩)

theorem TurnShape.eq_of_not_run {s t : State} (h : TurnShape s t) (hr : s.runState ≠ .run) : t = s := by
  cases h with
  | still _ => rfl
  | overrun h _ | illegal h _ _ _ _ | ran h _ _ _ _ _ _ _ => exact absurd h hr

theorem isReset_writeCtrl (w : Word) : (Event.access (.write 32 0x800#12 w)).isReset = w.getLsbD 1 := rfl

theorem isStart_writeCtrl (w : Word) : (Event.access (.write 32 0x800#12 w)).isStart = (!w.getLsbD 1 && w.getLsbD 0) := rfl

/-- Resets and STARTs among the host's writes are writes to CTRL. -/
theorem isReset_isStart_of_not_ctrl {width : Nat} {offset : BitVec 12} (w : Word) (h : ¬(width = 32 ∧ offset = 0x800#12)) :
    (Event.access (.write width offset w)).isReset = false ∧ (Event.access (.write width offset w)).isStart = false := by
  simp only [Event.isReset, Event.isStart, decide_eq_false h, Bool.false_and, and_self]

/-- STATE after a START (R30, R35). -/
theorem runState_writeCtrl_start {s : State} {w : Word} (h1 : w.getLsbD 1 = false) (h0 : w.getLsbD 0 = true) :
    (s.writeCtrl w).runState = if s.runState = .idle ∨ s.runState = .halted then .run else s.runState := by
  split
  case isTrue h => rw [writeCtrl_start h1 h0 h]
  case isFalse h =>
    have hr : s.runState = .run ∨ s.runState = .fault :=
      (loadable_eq_false_iff _).mp (Bool.eq_false_iff.mpr (mt (loadable_iff _).mp h))
    rw [writeCtrl_ignored h1 (.inr hr)]

/-- STATE after a host write that is a reset, a START, or neither. -/
theorem runState_windowWrite (s : State) (width : Nat) (offset : BitVec 12) (w : Word) :
    ((Event.access (.write width offset w)).isReset = true → (windowWrite s width offset w).1.runState = .idle) ∧
    ((Event.access (.write width offset w)).isStart = true →
      (windowWrite s width offset w).1.runState = if s.runState = .idle ∨ s.runState = .halted then .run else s.runState) ∧
    ((Event.access (.write width offset w)).isReset = false → (Event.access (.write width offset w)).isStart = false →
      (windowWrite s width offset w).1.runState = s.runState) := by
  by_cases hc : width = 32 ∧ offset = 0x800#12
  · obtain ⟨rfl, rfl⟩ := hc
    simp only [isReset_writeCtrl, isStart_writeCtrl, windowWrite_ctrl, Bool.and_eq_true, Bool.not_eq_true']
    refine ⟨fun h1 => ?_, fun ⟨h1, h0⟩ => runState_writeCtrl_start h1 h0, fun h1 h => ?_⟩
    · rw [writeCtrl_reset h1]
      rfl
    · rw [h1, Bool.not_false, Bool.true_and] at h
      rw [writeCtrl_ignored h1 (.inl h)]
  · obtain ⟨hreset, hstart⟩ := isReset_isStart_of_not_ctrl w hc
    rw [hreset, hstart]
    exact ⟨nofun, nofun, fun _ _ => windowWrite_runState hc⟩

/-- Settles O42, event by event: the last two clauses are about the sequencer's turn, the first three about the other events. -/
theorem stateTransitionsAreTheListedOnes : Obligations.StateTransitionsAreTheListedOnes := by
  intro s t hstep
  cases step_shape hstep with
  | turn he ht =>
    rw [he]
    exact ⟨nofun, nofun, fun _ _ h => absurd rfl h, fun _ hr => ht.eq_of_not_run hr, fun _ hr => ht.run_cases hr⟩
  | read width offset r he _ =>
    rw [he]
    exact ⟨nofun, nofun, fun _ _ _ => rfl, nofun, nofun⟩
  | write width offset w he =>
    rw [he]
    obtain ⟨hreset, hstart, helse⟩ := runState_windowWrite s.taken width offset w
    exact ⟨hreset, hstart, fun h1 h2 _ => helse h1 h2, nofun, nofun⟩
  | resetInput he | powerOn _ he =>
    rw [he]
    exact ⟨fun _ => rfl, nofun, nofun, nofun, nofun⟩

end Sys2Proof.Machine
end

section
/-! PROOFS. The host window's refusals (20_memory.md R47), the registers and the program store through it (R42, R43, R45), the reads' lack
of side effects (R48), and an instruction placed for the next fetch (R52; 42_sequencing.md R130). -/

namespace Sys2Proof.Machine

/-! ### The offsets of the window's targets (R41 to R44). -/

/-- The window map read backwards: which offsets a target stands at. -/
inductive TargetAt (offset : BitVec 12) : Target → Prop
  | lane (n : VReg) (l : Fin 8) (hi : offset.toNat < 0x400) : TargetAt offset (.lane n l)
  | program (a : Nat) (lo : 0x400 ≤ offset.toNat) (hi : offset.toNat < 0x800) : TargetAt offset (.program a)
  | ctrl (ho : offset.toNat = 0x800) : TargetAt offset .ctrl
  | status (ho : offset.toNat = 0x804) : TargetAt offset .status
  | pc (ho : offset.toNat = 0x808) : TargetAt offset .pc
  | reserved (lo : 0x800 < offset.toNat) (hs : offset.toNat ≠ 0x804) (hp : offset.toNat ≠ 0x808) : TargetAt offset .reserved

theorem targetAt_target (offset : BitVec 12) : TargetAt offset (target offset) := by
  unfold target
  split_ifs with hlane hprogram hctrl hstatus hpc
  · exact .lane _ _ hlane
  · exact .program _ (Nat.le_of_not_lt hlane) hprogram
  · exact .ctrl hctrl
  · exact .status hstatus
  · exact .pc hpc
  · exact .reserved (by omega) hstatus hpc

theorem target_eq_lane {offset : BitVec 12} {n : VReg} {l : Fin 8} (h : offset.toNat = 32 * n.val + 4 * l.val) :
    target offset = .lane n l := by
  have hlt : offset.toNat < 0x400 := by omega
  rw [target, dif_pos hlt]
  refine congrArg₂ Target.lane (Fin.ext (?_ : offset.toNat / 32 = n.val)) (Fin.ext (?_ : offset.toNat / 4 % 8 = l.val)) <;> omega

theorem target_eq_program {offset : BitVec 12} {a : Nat} (ha : a < 256) (h : offset.toNat = 0x400 + 4 * a) :
    target offset = .program a := by
  have hge : ¬offset.toNat < 0x400 := by omega
  have hlt : offset.toNat < 0x800 := by omega
  rw [target, dif_neg hge, if_pos hlt, Target.program.injEq]
  omega

theorem wellShaped_iff (width : Nat) (offset : BitVec 12) : wellShaped width offset = true ↔ width = 32 ∧ offset.toNat % 4 = 0 :=
  decide_eq_true_iff

theorem not_wellShaped_iff (width : Nat) (offset : BitVec 12) :
    ¬wellShaped width offset = true ↔ width ≠ 32 ∨ offset.toNat % 4 ≠ 0 := by
  rw [wellShaped_iff, not_and_or]

/-! ### Refusals (R47). -/

section
variable (s : State) (width : Nat) (offset : BitVec 12) (w : Word)

/-- Target by target: the answer there, its offsets (R41), and for registers and program words the STATEs that admit the read. -/
theorem windowRead_eq_refused_iff : windowRead s width offset = some .refused ↔
    (width ≠ 32 ∨ offset.toNat % 4 ≠ 0) ∨ 0x80C ≤ offset.toNat ∨ offset.toNat = 0x800 ∨
    (offset.toNat < 0x800 ∧ s.runState = .run) := by
  by_cases hs : wellShaped width offset = true
  case neg => exact iff_of_true (if_neg hs) (.inl ((not_wellShaped_iff _ _).mp hs))
  case pos =>
    have hrun := readable_iff s.runState
    have hat := targetAt_target offset
    obtain ⟨hw, ha⟩ := (wellShaped_iff _ _).mp hs
    rw [windowRead, if_pos hs]
    generalize target offset = T at hat
    cases hat with
    | program a lo hi =>
      have hword : (programWord s.pmem a).map Reply.data ≠ some .refused := by simp
      grind
    | lane _ _ _ | ctrl _ | status _ | pc _ | reserved _ _ _ => grind

/-- Target by target, as for reads; IDLE and HALTED admit a write to a register, a program word or PC. -/
theorem windowWrite_eq_refused_iff : (windowWrite s width offset w).2 = .refused ↔
    (width ≠ 32 ∨ offset.toNat % 4 ≠ 0) ∨ 0x80C ≤ offset.toNat ∨ offset.toNat = 0x804 ∨
    (offset.toNat < 0x800 ∧ (s.runState = .run ∨ s.runState = .fault)) ∨
    (offset.toNat = 0x808 ∧ (s.runState = .run ∨ s.runState = .fault)) := by
  by_cases hs : wellShaped width offset = true
  case neg => exact iff_of_true (congrArg Prod.snd (if_neg hs)) (.inl ((not_wellShaped_iff _ _).mp hs))
  case pos =>
    have hrun := loadable_eq_false_iff s.runState
    have hat := targetAt_target offset
    obtain ⟨hw, ha⟩ := (wellShaped_iff _ _).mp hs
    rw [windowWrite, if_pos hs]
    generalize target offset = T at hat
    cases hat with
    | lane _ _ _ | program _ _ _ | ctrl _ | status _ | pc _ | reserved _ _ _ => grind

end

section
variable {s : State} {width : Nat} {offset : BitVec 12} {w : Word}

/-- A refused write leaves the state as it was. -/
theorem windowWrite_of_refused (h : (windowWrite s width offset w).2 = .refused) :
    windowWrite s width offset w = (s, .refused) := by
  have effect := windowWrite_effect s width offset w
  generalize windowWrite s width offset w = p at h effect
  cases effect with
  | refused => rfl
  | lane _ _ _ _ _ | program _ _ _ _ | ctrl _ _ | pc _ _ _ => cases h

theorem step_read_refused (h : s.nextEvent = .access (.read width offset)) (hr : windowRead s width offset = some .refused) :
    step s = .next { s.taken with replies := s.replies ++ [.refused] } := step_read h hr

theorem step_write_refused (h : s.nextEvent = .access (.write width offset w)) (hr : (windowWrite s width offset w).2 = .refused) :
    step s = .next { s.taken with replies := s.replies ++ [.refused] } := by
  have hlisted := (windowWrite_eq_refused_iff s width offset w).mp hr
  have hr : (windowWrite s.taken width offset w).2 = .refused := (windowWrite_eq_refused_iff s.taken width offset w).mpr hlisted
  rw [step_write h, windowWrite_of_refused hr]
  rfl

/-- Registers and program words are not read while the unit runs. -/
theorem step_read_running (h : s.nextEvent = .access (.read width offset)) (ho : offset.toNat < 0x800) (hr : s.runState = .run) :
    step s = .next { s.taken with replies := s.replies ++ [.refused] } :=
  step_read_refused h ((windowRead_eq_refused_iff s width offset).mpr (.inr (.inr (.inr ⟨ho, hr⟩))))

/-- Registers and program words are written only when the unit is IDLE or HALTED. -/
theorem step_write_not_loadable (h : s.nextEvent = .access (.write width offset w)) (ho : offset.toNat < 0x800)
    (hr : s.runState = .run ∨ s.runState = .fault) : step s = .next { s.taken with replies := s.replies ++ [.refused] } :=
  step_write_refused h ((windowWrite_eq_refused_iff s width offset w).mpr (.inr (.inr (.inr (.inl ⟨ho, hr⟩)))))

end

/-- Settles O49: the two tables of refusals, and that a refused access leaves the state as it was. -/
theorem refusedAccessesAreTheListedOnes : Obligations.RefusedAccessesAreTheListedOnes :=
  ⟨windowRead_eq_refused_iff, windowWrite_eq_refused_iff, fun _ _ _ => step_read_refused,
    fun _ _ _ _ => step_write_refused⟩

/-! ### Accepted accesses to registers and program words (R42, R43). -/

section
variable {s : State} {offset : BitVec 12} {n : VReg} {l : Fin 8} {a : Nat}

theorem wellShaped_word (h : offset.toNat % 4 = 0) : wellShaped 32 offset = true := (wellShaped_iff 32 offset).mpr ⟨rfl, h⟩

theorem windowRead_lane (ho : offset.toNat = 32 * n.val + 4 * l.val) (hr : s.runState ≠ .run) :
    windowRead s 32 offset = some (.data s.v[n][l]) := by
  have hs := wellShaped_word (offset := offset) (by omega)
  simp only [windowRead, hs, target_eq_lane ho, (readable_iff _).mpr hr, if_true, State.readV_eq]

theorem windowWrite_lane (w : Word) (ho : offset.toNat = 32 * n.val + 4 * l.val) (hr : s.runState = .idle ∨ s.runState = .halted) :
    windowWrite s 32 offset w = (s.writeLane n l w, .accepted) := by
  have hs := wellShaped_word (offset := offset) (by omega)
  simp only [windowWrite, hs, target_eq_lane ho, (loadable_iff _).mpr hr, if_true]

theorem windowRead_program {x : Word} (ha : a < 256) (ho : offset.toNat = 0x400 + 4 * a) (hr : s.runState ≠ .run)
    (hx : programWord s.pmem a = some x) : windowRead s 32 offset = some (.data x) := by
  have hs := wellShaped_word (offset := offset) (by omega)
  simp only [windowRead, hs, target_eq_program ha ho, (readable_iff _).mpr hr, if_true, hx, Option.map_some]

theorem windowWrite_program (w : Word) (ha : a < 256) (ho : offset.toNat = 0x400 + 4 * a)
    (hr : s.runState = .idle ∨ s.runState = .halted) :
    windowWrite s 32 offset w = ({ s with pmem := writeProgramWord s.pmem a w }, .accepted) := by
  have hs := wellShaped_word (offset := offset) (by omega)
  simp only [windowWrite, hs, target_eq_program ha ho, (loadable_iff _).mpr hr, if_true]

end

/-! ### One lane of the registers (R42). -/

theorem writeLane_same (s : State) (n : VReg) (l : Fin 8) (w : Word) : (s.writeLane n l w).v[n][l] = w := by simp

theorem writeLane_other (s : State) {n m : VReg} {l k : Fin 8} (w : Word) (h : (m, k) ≠ (n, l)) :
    (s.writeLane n l w).v[m][k] = s.v[m][k] := by
  rw [State.writeLane_v]
  by_cases hm : m = n
  · subst hm
    have hk : l.val ≠ k.val := fun e => h (by rw [Fin.ext e])
    simp [hk]
  · rw [frame_set s.v n m _ (decide_eq_false hm)]

/-- Settles O50: the window's map sends the offset to lane `l` of `v[n]`; the refusals are those of R47. -/
theorem windowReachesEveryLane : Obligations.WindowReachesEveryLane := by
  intro s n l offset w ho
  have hlow : offset.toNat < 0x800 := by omega
  refine ⟨fun h hr => ⟨(s.taken.writeLane n l w).reply .accepted, ?_, writeLane_same s.taken n l w,
      fun m k hmk => writeLane_other s.taken w hmk, rfl⟩,
    fun h hr => step_read h (windowRead_lane (s := s.taken) ho hr), fun h => step_read_running h hlow,
    fun h => step_write_not_loadable h hlow⟩
  rw [step_write h, windowWrite_lane (s := s.taken) w ho hr]

/-! ### The bytes of a program word (R45). -/

/-- Byte `n` of a word is its bits `8n+7` to `8n`. -/
theorem byteOf_eq_bits (w : Word) (n : Nat) : byteOf w n = BitVec.ofNat 8 (bits w (8 * n + 7) (8 * n)) := by
  refine BitVec.eq_of_toNat_eq ?_
  have hwidth : 8 * n + 7 + 1 - 8 * n = 8 := by omega
  simp only [byteOf, bits, BitVec.toNat_ofNat, hwidth, pow_mul, Nat.mod_mod, Nat.reducePow]

/-- Byte `n` of `PMEM[a]` after a write. -/
theorem read_writeProgramWord (m : Memory) (a : Nat) (w : Word) {n : Nat} (hn : n < 4) :
    (writeProgramWord m a w).read (0x400 + 4 * a + n) = some (BitVec.ofNat 8 (bits w (8 * n + 7) (8 * n))) := by
  rw [← byteOf_eq_bits]
  exact m.read_writeWord_byte (programOffset a) w hn

/-- Settles O51: the window's map sends the offset to `PMEM[a]`, and the store's laws say what a write of that word changes. -/
theorem windowReachesEveryProgramWord : Obligations.WindowReachesEveryProgramWord := by
  intro s a offset w ha ho
  have hlow : offset.toNat < 0x800 := by omega
  refine ⟨fun h hr => ?_, fun x hx h hr => step_read h (windowRead_program (s := s.taken) ha ho hr hx),
    fun h => step_read_running h hlow, fun h => step_write_not_loadable h hlow⟩
  have hword := programWord_write_same s.pmem a w
  have hbyte : ∀ n < 4, (writeProgramWord s.pmem a w).read (offset.toNat + n) =
      some (BitVec.ofNat 8 (bits w (8 * n + 7) (8 * n))) := fun n hn => by rw [ho, read_writeProgramWord s.pmem a w hn]
  refine ⟨State.reply { s.taken with pmem := writeProgramWord s.pmem a w } .accepted, ?_, hword, hbyte 0 (by decide),
    hbyte 1 (by decide), hbyte 2 (by decide), hbyte 3 (by decide), fun x hx => ?_, fun b => programWord_write_other s.pmem w,
    fun hpc => ?_, rfl⟩
  · rw [step_write h, windowWrite_program (s := s.taken) w ha ho hr]
    rfl
  · rw [ho] at hx
    exact s.pmem.read_writeWord_other w hx
  · rw [← hpc] at ha
    exact fetch_word ha (hpc ▸ hword)

/-! ### Reads have no side effect (R48). -/

/-- Settles O55: a read only adds its answer to the replies, which no read looks at. -/
theorem readsHaveNoSideEffect : Obligations.ReadsHaveNoSideEffect := by
  intro s t width offset h hstep
  cases step_shape hstep with
  | read _ _ r he hr =>
    cases h.symm.trans he
    exact ⟨r, rfl, hr, hr⟩
  | turn he _ | write _ _ _ he | resetInput he | powerOn _ he => cases h.symm.trans he

/-! ### A word placed for the next fetch (R52, R130). -/

theorem decode_of_decodeTableWord {w : Nat} {i : Instr} (h : decodeTableWord 32 w = some i) : decode (tableWord 32 w) = .ok i := by
  rw [decodeTableWord, if_pos (le_refl 32)] at h
  cases hd : decode (tableWord 32 w) with
  | error r => rw [hd] at h; cases h
  | ok j => rw [hd] at h; exact congrArg Except.ok (Option.some.inj h)

theorem fetchIndex_lt (s : State) : fetchIndex s < 256 := by
  unfold fetchIndex
  split <;> omega

theorem toNat_pc_loadedWith (s : State) (w : Word) : (s.loadedWith w).pc.toNat = fetchIndex s := by
  have := fetchIndex_lt s
  simp only [State.loadedWith, BitVec.toNat_ofNat]
  omega

theorem fetch_loadedWith (s : State) (w : Word) : fetch (s.loadedWith w) = .word w := by
  have hpc := toNat_pc_loadedWith s w
  refine fetch_word (by rw [hpc]; exact fetchIndex_lt s) ?_
  rw [hpc]
  exact programWord_write_same s.pmem (fetchIndex s) w

/-- Settles O38: the loaded unit runs, with nothing pending, and fetches the placed word. -/
theorem placedWordIsTheNextInstruction : Obligations.PlacedWordIsTheNextInstruction := by
  intro s w i _ h
  exact sequencerTurn_exec rfl (fetch_loadedWith s _) (decode_of_decodeTableWord h)

end Sys2Proof.Machine
end

section
/-! PROOFS. Decoding and encoding (30_encoding.md R63 to R67, R70, R73): each undoes the other, every word fits one row of R66 or is
illegal, and what an illegal word or term raises. -/

namespace Sys2Proof

/-! ### The decoder behind each opcode (R65). -/

section
variable {w : Word}

theorem decode_of_vaddOp (h : bits w 31 26 = 0x01) : decode w = decodeR .vadd w := by simp [decode, h]
theorem decode_of_vsubOp (h : bits w 31 26 = 0x02) : decode w = decodeR .vsub w := by simp [decode, h]
theorem decode_of_vsaddOp (h : bits w 31 26 = 0x03) : decode w = decodeR .vsadd w := by simp [decode, h]
theorem decode_of_vhalveOp (h : bits w 31 26 = 0x04) : decode w = decodeU .vhalve w := by simp [decode, h]
theorem decode_of_vmul2kOp (h : bits w 31 26 = 0x05) : decode w = decodeK .vmul2k .vnmul2k w := by simp [decode, h]
theorem decode_of_dmulOp (h : bits w 31 26 = 0x08) : decode w = decodeDmul w := by simp [decode, h]
theorem decode_of_asumOp (h : bits w 31 26 = 0x09) : decode w = decodeSum .asum16 .asum24 w := by simp [decode, h]
theorem decode_of_dlinOp (h : bits w 31 26 = 0x0A) : decode w = decodeSum .dlin16 .dlin24 w := by simp [decode, h]
theorem decode_of_haltOp (h : bits w 31 26 = 0x3F) : decode w = decodeZ .halt w := by simp [decode, h]

/-- An opcode of six bits is one of the nine of R65 or one of the reserved ones R70 lists. -/
theorem opcode_cases (w : Word) :
    bits w 31 26 = 0x01 ∨ bits w 31 26 = 0x02 ∨ bits w 31 26 = 0x03 ∨ bits w 31 26 = 0x04 ∨ bits w 31 26 = 0x05 ∨
    bits w 31 26 = 0x08 ∨ bits w 31 26 = 0x09 ∨ bits w 31 26 = 0x0A ∨ bits w 31 26 = 0x3F ∨
    (bits w 31 26 = 0x00 ∨ bits w 31 26 = 0x06 ∨ bits w 31 26 = 0x07 ∨ (0x0B ≤ bits w 31 26 ∧ bits w 31 26 ≤ 0x3E)) := by
  have := w.isLt
  rw [bits_op]
  omega

theorem decode_of_reservedOp
    (h : bits w 31 26 = 0x00 ∨ bits w 31 26 = 0x06 ∨ bits w 31 26 = 0x07 ∨ (0x0B ≤ bits w 31 26 ∧ bits w 31 26 ≤ 0x3E)) :
    decode w = .error .reservedOpcode := by
  unfold decode
  repeat rw [if_neg (by omega)]

theorem decodeSum_w16 {mk16 mk24 : VReg → Instr} (hz : zerosM w = true) (hw : bits w 0 0 = 0)
    (hs : sumLegal .w16 (regField w 11) = true) : decodeSum mk16 mk24 w = .ok (mk16 (regField w 11)) := by
  simp [decodeSum, widthField, hz, hw, hs]

theorem decodeSum_w24 {mk16 mk24 : VReg → Instr} (hz : zerosM w = true) (hw : bits w 0 0 = 1)
    (hs : sumLegal .w24 (regField w 11) = true) : decodeSum mk16 mk24 w = .ok (mk24 (regField w 11)) := by
  simp [decodeSum, widthField, hz, hw, hs]

end

/-! ### Words and operands that are refused (R63, R64, R70). -/

theorem shiftLegal_eq_false_iff (k : Nat) : shiftLegal k = false ↔ k = 0 ∨ 24 < k := by
  rw [← Bool.not_eq_true, shiftLegal_iff]
  omega

theorem sumLegal_eq_false_iff (w : Width) (vs : VReg) : sumLegal w vs = false ↔ vs.val < w.positions := by
  rw [← Bool.not_eq_true, sumLegal_iff, Nat.not_le]

section
variable {w : Word}

theorem sumField_illegal_iff :
    sumLegal (widthField w) (regField w 11) = false ↔ bits w 15 11 < (if bits w 0 0 = 0 then 16 else 24) := by
  rw [sumLegal_eq_false_iff, widthField]
  split <;> exact Iff.rfl

theorem zerosM_iff : zerosM w = true ↔ bits w 25 16 = 0 ∧ bits w 10 1 = 0 := by rw [zerosM, decide_eq_true_eq]

theorem zerosM_eq_false_iff : zerosM w = false ↔ bits w 25 16 ≠ 0 ∨ bits w 10 1 ≠ 0 := by
  rw [← Bool.not_eq_true, zerosM_iff, not_and_or]

theorem decodeR_error_iff {mk : VReg → VReg → VReg → Instr} : (∃ r, decodeR mk w = .error r) ↔ bits w 10 0 ≠ 0 := by
  unfold decodeR
  split <;> simp [*]

theorem decodeU_error_iff {mk : VReg → VReg → Instr} : (∃ r, decodeU mk w = .error r) ↔ bits w 15 0 ≠ 0 := by
  unfold decodeU
  split <;> simp [*]

theorem decodeK_error_iff {pos neg : VReg → VReg → Nat → Instr} :
    (∃ r, decodeK pos neg w = .error r) ↔ bits w 15 6 ≠ 0 ∨ shiftLegal (bits w 4 0) = false := by
  unfold decodeK
  split
  · split <;> simp [*]
  · simp [*]

theorem decodeDmul_error_iff : (∃ r, decodeDmul w = .error r) ↔ zerosM w = false ∨ bits w 15 11 ≠ 0 := by
  unfold decodeDmul
  split
  · split
    · split <;> simp [*]
    · simp [*]
  · simp [*]

theorem decodeSum_error_iff {mk16 mk24 : VReg → Instr} :
    (∃ r, decodeSum mk16 mk24 w = .error r) ↔ zerosM w = false ∨ sumLegal (widthField w) (regField w 11) = false := by
  unfold decodeSum
  split
  · split
    · have hs := ‹sumLegal (widthField w) (regField w 11) = true›
      split <;> simp [hs, ‹zerosM w = true›]
    · simp [*]
  · simp [*]

theorem decodeZ_error_iff {i : Instr} : (∃ r, decodeZ i w = .error r) ↔ bits w 25 0 ≠ 0 := by
  unfold decodeZ
  split <;> simp [*]

end

/-! ### Each format's decoder on the words of its encoder. -/

theorem lt_of_shiftLegal {k : Nat} (h : shiftLegal k = true) : k < 32 := Nat.lt_of_le_of_lt ((shiftLegal_iff k).mp h).2 (by decide)

section
variable {op : Nat} (hop : op < 64)
include hop

theorem decodeR_encodeRU (mk : VReg → VReg → VReg → Instr) (vd va vb : VReg) :
    decodeR mk (encodeRU op vd va vb) = .ok (mk vd va vb) := by
  obtain ⟨-, hz, hd, ha, hb, -⟩ := encodeRU_fields hop vb.isLt vd va
  rw [decodeR, if_pos hz, hd, ha, Fin.ext hb]

theorem decodeU_encodeRU (mk : VReg → VReg → Instr) (vd va : VReg) : decodeU mk (encodeRU op vd va 0) = .ok (mk vd va) := by
  obtain ⟨-, -, hd, ha, -, hz⟩ := encodeRU_fields hop (vb := 0) (by decide) vd va
  rw [decodeU, if_pos hz, hd, ha]

theorem decodeK_encodeK (pos neg : VReg → VReg → Nat → Instr) {n k : Nat} (hn : n < 2) (hk : shiftLegal k = true) (vd va : VReg) :
    decodeK pos neg (encodeK op vd va n k) = .ok ((if n = 0 then pos else neg) vd va k) := by
  obtain ⟨-, hz, hd, ha, hn, hk'⟩ := encodeK_fields hop hn (lt_of_shiftLegal hk) vd va
  rw [decodeK, if_pos hz, hk', if_pos hk, hn, hd, ha]

theorem decodeSum_encodeM_zero (mk16 mk24 : VReg → Instr) {vs : VReg} (hs : sumLegal .w16 vs = true) :
    decodeSum mk16 mk24 (encodeM op vs 0) = .ok (mk16 vs) := by
  obtain ⟨-, hz, hv, hw⟩ := encodeM_fields hop (w := 0) (by decide) vs
  rw [decodeSum_w16 hz hw (hv.symm ▸ hs), hv]

theorem decodeSum_encodeM_one (mk16 mk24 : VReg → Instr) {vs : VReg} (hs : sumLegal .w24 vs = true) :
    decodeSum mk16 mk24 (encodeM op vs 1) = .ok (mk24 vs) := by
  obtain ⟨-, hz, hv, hw⟩ := encodeM_fields hop (w := 1) (by decide) vs
  rw [decodeSum_w24 hz hw (hv.symm ▸ hs), hv]

end

/-- Settles O2, constructor by constructor: the word's opcode names the format's decoder, and that decoder reads the operands back. -/
theorem decodeOfEncodeIsTheInstruction : Obligations.DecodeOfEncodeIsTheInstruction := by
  intro i hi
  cases i with
  | vadd vd va vb =>
    exact (decode_of_vaddOp (encodeRU_fields (by decide) vb.isLt vd va).1).trans (decodeR_encodeRU (by decide) .vadd vd va vb)
  | vsub vd va vb =>
    exact (decode_of_vsubOp (encodeRU_fields (by decide) vb.isLt vd va).1).trans (decodeR_encodeRU (by decide) .vsub vd va vb)
  | vsadd vd va vb =>
    exact (decode_of_vsaddOp (encodeRU_fields (by decide) vb.isLt vd va).1).trans (decodeR_encodeRU (by decide) .vsadd vd va vb)
  | vhalve vd va =>
    exact (decode_of_vhalveOp (encodeRU_fields (by decide) (by decide) vd va).1).trans (decodeU_encodeRU (by decide) .vhalve vd va)
  | vmul2k vd va k =>
    exact (decode_of_vmul2kOp (encodeK_fields (by decide) (by decide) (lt_of_shiftLegal hi) vd va).1).trans
      (decodeK_encodeK (by decide) .vmul2k .vnmul2k (by decide) hi vd va)
  | vnmul2k vd va k =>
    exact (decode_of_vmul2kOp (encodeK_fields (by decide) (by decide) (lt_of_shiftLegal hi) vd va).1).trans
      (decodeK_encodeK (by decide) .vmul2k .vnmul2k (by decide) hi vd va)
  | dmul16 => decide
  | dmul24 => decide
  | asum16 vs =>
    exact (decode_of_asumOp (encodeM_fields (by decide) (by decide) vs).1).trans (decodeSum_encodeM_zero (by decide) .asum16 .asum24 hi)
  | asum24 vs =>
    exact (decode_of_asumOp (encodeM_fields (by decide) (by decide) vs).1).trans (decodeSum_encodeM_one (by decide) .asum16 .asum24 hi)
  | dlin16 vs =>
    exact (decode_of_dlinOp (encodeM_fields (by decide) (by decide) vs).1).trans (decodeSum_encodeM_zero (by decide) .dlin16 .dlin24 hi)
  | dlin24 vs =>
    exact (decode_of_dlinOp (encodeM_fields (by decide) (by decide) vs).1).trans (decodeSum_encodeM_one (by decide) .dlin16 .dlin24 hi)
  | halt => decide

/-! ### A word rebuilt by the encoder of its format. -/

theorem bits_lt (w : Word) (hi lo : Nat) : bits w hi lo < 2 ^ (hi + 1 - lo) := Nat.mod_lt _ (Nat.two_pow_pos _)

section
variable {w : Word} {op : Nat} (hop : bits w 31 26 = op)
include hop

theorem encodeRU_of_fields (hz : bits w 10 0 = 0) : encodeRU op (regField w 21) (regField w 16) (regField w 11) = w := by
  refine BitVec.eq_of_toNat_eq ?_
  rw [toNat_encodeRU (hop ▸ bits_lt w 31 26) (Fin.isLt _), toNat_of_fieldsRU w hz, hop]

theorem encodeU_of_fields (hz : bits w 15 0 = 0) : encodeRU op (regField w 21) (regField w 16) 0 = w := by
  have hz' : bits w 10 0 = 0 ∧ (regField w 11).val = 0 := by
    simp only [bits, regField_val, Nat.reducePow, Nat.reduceAdd, Nat.reduceSub] at *
    omega
  have h := encodeRU_of_fields hop hz'.1
  rwa [hz'.2] at h

theorem encodeK_of_fields (hz : bits w 15 6 = 0) :
    encodeK op (regField w 21) (regField w 16) (bits w 5 5) (bits w 4 0) = w := by
  refine BitVec.eq_of_toNat_eq ?_
  rw [toNat_encodeK (hop ▸ bits_lt w 31 26) (bits_lt w 5 5) (bits_lt w 4 0), toNat_of_fieldsK w hz, hop]

theorem encodeM_of_fields (hz : zerosM w = true) : encodeM op (regField w 11) (bits w 0 0) = w := by
  refine BitVec.eq_of_toNat_eq ?_
  rw [toNat_encodeM (hop ▸ bits_lt w 31 26) (bits_lt w 0 0), toNat_of_fieldsM w hz, hop]

end

/-- Settles O3: what the format's decoder accepts says which fields are zero, and the other fields give the word back. -/
theorem decodedWordIsItsEncoding : Obligations.DecodedWordIsItsEncoding := by
  intro w i h
  obtain ⟨hop, h⟩ | ⟨hop, h⟩ | ⟨hop, h⟩ | ⟨hop, h⟩ | ⟨hop, h⟩ | ⟨hop, h⟩ | ⟨hop, h⟩ | ⟨hop, h⟩ | ⟨-, h'⟩ := decode_ok_cases h
  iterate 3
    · obtain ⟨hz, rfl⟩ := decodeR_ok h
      exact ⟨rfl, encodeRU_of_fields hop hz⟩
  · obtain ⟨hz, rfl⟩ := decodeU_ok h
    exact ⟨rfl, encodeU_of_fields hop hz⟩
  · obtain ⟨hz, hk, rfl⟩ := decodeK_ok h
    have hword := encodeK_of_fields hop hz
    rcases bits_five_five w with hn | hn <;> rw [hn] at hword ⊢
    · exact ⟨hk, hword⟩
    · exact ⟨hk, hword⟩
  · obtain ⟨hz, hs, hi⟩ := decodeDmul_ok h
    have hword := encodeM_of_fields hop hz
    rw [show (regField w 11).val = 0 from hs] at hword
    obtain ⟨hw, rfl⟩ | ⟨hw, rfl⟩ := hi
    · rw [hw] at hword
      exact ⟨rfl, hword⟩
    · rw [(bits_zero_zero w).resolve_left hw] at hword
      exact ⟨rfl, hword⟩
  iterate 2
    · obtain ⟨hz, hi⟩ := decodeSum_ok h
      have hword := encodeM_of_fields hop hz
      obtain ⟨hw, hs, rfl⟩ | ⟨hw, hs, rfl⟩ := hi
      · rw [hw] at hword
        exact ⟨hs, hword⟩
      · rw [(bits_zero_zero w).resolve_left hw] at hword
        exact ⟨hs, hword⟩
  · obtain ⟨-, rfl⟩ := decodeZ_ok h'
    exact ⟨rfl, (Machine.eq_haltWord_of_decode h).symm⟩

/-! ### The rows of R66 as fields of the word. -/

/-- A field of two words is the same number when its bits are the same. -/
theorem bits_eq_iff (x y : Word) (hi lo : Nat) :
    bits x hi lo = bits y hi lo ↔ ∀ i, lo ≤ i → i ≤ hi → x.getLsbD i = y.getLsbD i := by
  have hbit : ∀ (z : Word) (i : Nat), (bits z hi lo).testBit i = (decide (i < hi + 1 - lo) && z.getLsbD (i + lo)) := fun z i => by
    rw [bits, Nat.testBit_mod_two_pow, Nat.testBit_div_two_pow, BitVec.getLsbD]
  constructor
  · intro h i hlo hhi
    have hi' := congrArg (Nat.testBit · (i - lo)) h
    have hlt : i - lo < hi + 1 - lo := by omega
    simpa only [hbit, hlt, decide_true, Bool.true_and, Nat.sub_add_cancel hlo] using hi'
  · intro h
    refine Nat.eq_of_testBit_eq fun i => ?_
    rw [hbit, hbit]
    by_cases hlt : i < hi + 1 - lo
    · rw [h (i + lo) (by omega) (by omega)]
    · simp only [hlt, decide_false, Bool.false_and]

/-- A mask that keeps two fields compares exactly those fields. -/
theorem and_mask_eq_iff {mask value : Word} {a b c d : Nat}
    (hm : ∀ i < 32, mask.getLsbD i = decide ((b ≤ i ∧ i ≤ a) ∨ (d ≤ i ∧ i ≤ c))) (hv : value &&& mask = value) (w : Word) :
    w &&& mask = value ↔ bits w a b = bits value a b ∧ bits w c d = bits value c d := by
  constructor
  · rintro rfl
    have hkept : ∀ i, (b ≤ i ∧ i ≤ a) ∨ (d ≤ i ∧ i ≤ c) → w.getLsbD i = (w &&& mask).getLsbD i := fun i hfield => by
      rcases Nat.lt_or_ge i 32 with hi | hi
      · rw [BitVec.getLsbD_and, hm i hi, decide_eq_true hfield, Bool.and_true]
      · rw [BitVec.getLsbD_of_ge _ _ hi, BitVec.getLsbD_of_ge _ _ hi]
    exact ⟨(bits_eq_iff _ _ a b).mpr fun i hlo hhi => hkept i (.inl ⟨hlo, hhi⟩),
      (bits_eq_iff _ _ c d).mpr fun i hlo hhi => hkept i (.inr ⟨hlo, hhi⟩)⟩
  · rintro ⟨hab, hcd⟩
    refine BitVec.eq_of_getLsbD_eq fun i hi => ?_
    rw [← hv, BitVec.getLsbD_and, BitVec.getLsbD_and, hm i hi]
    by_cases hfield : (b ≤ i ∧ i ≤ a) ∨ (d ≤ i ∧ i ≤ c)
    · congr 1
      rcases hfield with ⟨hlo, hhi⟩ | ⟨hlo, hhi⟩
      · exact (bits_eq_iff w value a b).mp hab i hlo hhi
      · exact (bits_eq_iff w value c d).mp hcd i hlo hhi
    · rw [decide_eq_false hfield, Bool.and_false, Bool.and_false]

/-- A row of format R, the three-register instructions. -/
def rowR (name : String) (op : Nat) : OpcodeRow := ⟨name, 0xFC0007FF#32, encodeRU op 0 0 0, .free⟩

/-- A row of format U. -/
def rowU (name : String) (op : Nat) : OpcodeRow := ⟨name, 0xFC00FFFF#32, encodeRU op 0 0 0, .free⟩

/-- A row of format K. -/
def rowK (name : String) (op n : Nat) : OpcodeRow := ⟨name, 0xFC00FFE0#32, encodeK op 0 0 n 0, .shift⟩

/-- A row of format M with a sum operand. -/
def rowSum (name : String) (op n : Nat) (condition : RowCondition) : OpcodeRow := ⟨name, 0xFFFF07FF#32, encodeM op 0 n, condition⟩

/-- A row that a single word fits. -/
def rowWord (name : String) (value : Word) : OpcodeRow := ⟨name, 0xFFFFFFFF#32, value, .free⟩

theorem opcodeRows_eq : opcodeRows =
    [rowR "VADD" 0x01, rowR "VSUB" 0x02, rowR "VSADD" 0x03, rowU "VHALVE" 0x04, rowK "VMUL2K" 0x05 0, rowK "VNMUL2K" 0x05 1,
     rowWord "DMUL.16" (encode .dmul16), rowWord "DMUL.24" (encode .dmul24), rowSum "ASUM.16" 0x09 0 .sum16,
     rowSum "ASUM.24" 0x09 1 .sum24, rowSum "DLIN.16" 0x0A 0 .sum16, rowSum "DLIN.24" 0x0A 1 .sum24,
     rowWord "HALT" (encode .halt)] := by decide

theorem OpcodeRow.fits_iff (row : OpcodeRow) (w : Word) :
    row.fits w = true ↔ w &&& row.mask = row.value ∧ row.condition.holds w = true := by
  rw [OpcodeRow.fits, Bool.and_eq_true, beq_iff_eq]

section
variable {name : String} {op n : Nat} {w : Word}

theorem rowR_fits_iff (hop : op < 64) : (rowR name op).fits w = true ↔ bits w 31 26 = op ∧ bits w 10 0 = 0 := by
  have hv : ∀ op < 64, encodeRU op 0 0 0 &&& 0xFC0007FF#32 = encodeRU op 0 0 0 := by decide
  obtain ⟨hvop, hvz, -⟩ := encodeRU_fields hop (vb := 0) (by decide) 0 0
  have h := and_mask_eq_iff (a := 31) (b := 26) (c := 10) (d := 0) (by decide) (hv op hop) w
  rw [show bits (encodeRU op 0 0 0) 31 26 = op from hvop, show bits (encodeRU op 0 0 0) 10 0 = 0 from hvz] at h
  exact (OpcodeRow.fits_iff _ w).trans ((and_iff_left rfl).trans h)

theorem rowU_fits_iff (hop : op < 64) : (rowU name op).fits w = true ↔ bits w 31 26 = op ∧ bits w 15 0 = 0 := by
  have hv : ∀ op < 64, encodeRU op 0 0 0 &&& 0xFC00FFFF#32 = encodeRU op 0 0 0 := by decide
  obtain ⟨hvop, -, -, -, -, hvz⟩ := encodeRU_fields hop (vb := 0) (by decide) 0 0
  have h := and_mask_eq_iff (a := 31) (b := 26) (c := 15) (d := 0) (by decide) (hv op hop) w
  rw [show bits (encodeRU op 0 0 0) 31 26 = op from hvop, show bits (encodeRU op 0 0 0) 15 0 = 0 from hvz] at h
  exact (OpcodeRow.fits_iff _ w).trans ((and_iff_left rfl).trans h)

theorem rowK_fits_iff (hop : op < 64) (hn : n < 2) : (rowK name op n).fits w = true ↔
    bits w 31 26 = op ∧ bits w 15 6 = 0 ∧ bits w 5 5 = n ∧ shiftLegal (bits w 4 0) = true := by
  have hv : ∀ op < 64, ∀ n < 2, encodeK op 0 0 n 0 &&& 0xFC00FFE0#32 = encodeK op 0 0 n 0 := by decide
  have hval : (encodeK op 0 0 n 0).toNat = op * 67108864 + n * 32 := by
    simpa using toNat_encodeK hop hn (k := 0) (by decide) 0 0
  have h := and_mask_eq_iff (a := 31) (b := 26) (c := 15) (d := 5) (by decide) (hv op hop n hn) w
  have hfields : bits w 31 26 = bits (encodeK op 0 0 n 0) 31 26 ∧ bits w 15 5 = bits (encodeK op 0 0 n 0) 15 5 ↔
      bits w 31 26 = op ∧ bits w 15 6 = 0 ∧ bits w 5 5 = n := by
    simp only [bits, hval, Nat.reducePow, Nat.reduceAdd, Nat.reduceSub]
    omega
  rw [OpcodeRow.fits_iff, ← and_assoc, ← and_assoc, and_assoc (a := bits w 31 26 = op)]
  exact and_congr_left' (h.trans hfields)

theorem rowSum_fits_iff {condition : RowCondition} (hop : op < 64) (hn : n < 2) : (rowSum name op n condition).fits w = true ↔
    bits w 31 26 = op ∧ zerosM w = true ∧ bits w 0 0 = n ∧ condition.holds w = true := by
  have hv : ∀ op < 64, ∀ n < 2, encodeM op 0 n &&& 0xFFFF07FF#32 = encodeM op 0 n := by decide
  have hval : (encodeM op 0 n).toNat = op * 67108864 + n := by simpa using toNat_encodeM hop hn 0
  have h := and_mask_eq_iff (a := 31) (b := 16) (c := 10) (d := 0) (by decide) (hv op hop n hn) w
  have hfields : bits w 31 16 = bits (encodeM op 0 n) 31 16 ∧ bits w 10 0 = bits (encodeM op 0 n) 10 0 ↔
      bits w 31 26 = op ∧ zerosM w = true ∧ bits w 0 0 = n := by
    rw [zerosM_iff]
    simp only [bits, hval, Nat.reducePow, Nat.reduceAdd, Nat.reduceSub]
    omega
  rw [OpcodeRow.fits_iff, ← and_assoc, ← and_assoc, and_assoc (a := bits w 31 26 = op)]
  exact and_congr_left' (h.trans hfields)

theorem rowWord_fits_iff {value : Word} : (rowWord name value).fits w = true ↔ w = value := by
  have hall : w &&& 0xFFFFFFFF#32 = w := BitVec.and_allOnes
  rw [OpcodeRow.fits_iff, rowWord, hall]
  exact and_iff_left rfl

end

/-! ### Rows and the decoder. -/

section
variable {w : Word} {i : Instr}

/-- A word that decodes fits the row of its instruction. -/
theorem exists_row_of_decode (h : decode w = .ok i) : ∃ row ∈ opcodeRows, row.fits w = true ∧ row.mnemonic = i.mnemonic := by
  have hword : encode i = w := (decodedWordIsItsEncoding w i h).2
  obtain ⟨hop, h⟩ | ⟨hop, h⟩ | ⟨hop, h⟩ | ⟨hop, h⟩ | ⟨hop, h⟩ | ⟨hop, h⟩ | ⟨hop, h⟩ | ⟨hop, h⟩ | ⟨-, h⟩ := decode_ok_cases h
  · obtain ⟨hz, rfl⟩ := decodeR_ok h
    exact ⟨rowR "VADD" 0x01, by decide, (rowR_fits_iff (by decide)).mpr ⟨hop, hz⟩, rfl⟩
  · obtain ⟨hz, rfl⟩ := decodeR_ok h
    exact ⟨rowR "VSUB" 0x02, by decide, (rowR_fits_iff (by decide)).mpr ⟨hop, hz⟩, rfl⟩
  · obtain ⟨hz, rfl⟩ := decodeR_ok h
    exact ⟨rowR "VSADD" 0x03, by decide, (rowR_fits_iff (by decide)).mpr ⟨hop, hz⟩, rfl⟩
  · obtain ⟨hz, rfl⟩ := decodeU_ok h
    exact ⟨rowU "VHALVE" 0x04, by decide, (rowU_fits_iff (by decide)).mpr ⟨hop, hz⟩, rfl⟩
  · obtain ⟨hz, hk, rfl⟩ := decodeK_ok h
    rcases bits_five_five w with hn | hn <;> rw [hn]
    · exact ⟨rowK "VMUL2K" 0x05 0, by decide, (rowK_fits_iff (by decide) (by decide)).mpr ⟨hop, hz, hn, hk⟩, rfl⟩
    · exact ⟨rowK "VNMUL2K" 0x05 1, by decide, (rowK_fits_iff (by decide) (by decide)).mpr ⟨hop, hz, hn, hk⟩, rfl⟩
  · obtain ⟨-, -, ⟨-, rfl⟩ | ⟨-, rfl⟩⟩ := decodeDmul_ok h
    · exact ⟨rowWord "DMUL.16" (encode .dmul16), by decide, rowWord_fits_iff.mpr hword.symm, rfl⟩
    · exact ⟨rowWord "DMUL.24" (encode .dmul24), by decide, rowWord_fits_iff.mpr hword.symm, rfl⟩
  · obtain ⟨hz, ⟨hw, hs, rfl⟩ | ⟨hw, hs, rfl⟩⟩ := decodeSum_ok h
    · exact ⟨rowSum "ASUM.16" 0x09 0 .sum16, by decide, (rowSum_fits_iff (by decide) (by decide)).mpr ⟨hop, hz, hw, hs⟩, rfl⟩
    · have hw := (bits_zero_zero w).resolve_left hw
      exact ⟨rowSum "ASUM.24" 0x09 1 .sum24, by decide, (rowSum_fits_iff (by decide) (by decide)).mpr ⟨hop, hz, hw, hs⟩, rfl⟩
  · obtain ⟨hz, ⟨hw, hs, rfl⟩ | ⟨hw, hs, rfl⟩⟩ := decodeSum_ok h
    · exact ⟨rowSum "DLIN.16" 0x0A 0 .sum16, by decide, (rowSum_fits_iff (by decide) (by decide)).mpr ⟨hop, hz, hw, hs⟩, rfl⟩
    · have hw := (bits_zero_zero w).resolve_left hw
      exact ⟨rowSum "DLIN.24" 0x0A 1 .sum24, by decide, (rowSum_fits_iff (by decide) (by decide)).mpr ⟨hop, hz, hw, hs⟩, rfl⟩
  · obtain ⟨-, rfl⟩ := decodeZ_ok h
    exact ⟨rowWord "HALT" (encode .halt), by decide, rowWord_fits_iff.mpr hword.symm, rfl⟩

/-- A word that fits a row decodes to an instruction of that row. -/
theorem decode_of_fits {row : OpcodeRow} (hrow : row ∈ opcodeRows) (h : row.fits w = true) :
    ∃ i, decode w = .ok i ∧ row.mnemonic = i.mnemonic := by
  rw [opcodeRows_eq] at hrow
  fin_cases hrow
  · obtain ⟨hop, hz⟩ := (rowR_fits_iff (by decide)).mp h
    exact ⟨_, (decode_of_vaddOp hop).trans (if_pos hz), rfl⟩
  · obtain ⟨hop, hz⟩ := (rowR_fits_iff (by decide)).mp h
    exact ⟨_, (decode_of_vsubOp hop).trans (if_pos hz), rfl⟩
  · obtain ⟨hop, hz⟩ := (rowR_fits_iff (by decide)).mp h
    exact ⟨_, (decode_of_vsaddOp hop).trans (if_pos hz), rfl⟩
  · obtain ⟨hop, hz⟩ := (rowU_fits_iff (by decide)).mp h
    exact ⟨_, (decode_of_vhalveOp hop).trans (if_pos hz), rfl⟩
  · obtain ⟨hop, hz, hn, hk⟩ := (rowK_fits_iff (by decide) (by decide)).mp h
    exact ⟨.vmul2k (regField w 21) (regField w 16) (bits w 4 0), by simp [decode_of_vmul2kOp hop, decodeK, hz, hk, hn], rfl⟩
  · obtain ⟨hop, hz, hn, hk⟩ := (rowK_fits_iff (by decide) (by decide)).mp h
    exact ⟨.vnmul2k (regField w 21) (regField w 16) (bits w 4 0), by simp [decode_of_vmul2kOp hop, decodeK, hz, hk, hn], rfl⟩
  · obtain rfl := rowWord_fits_iff.mp h
    exact ⟨_, decodeOfEncodeIsTheInstruction .dmul16 rfl, rfl⟩
  · obtain rfl := rowWord_fits_iff.mp h
    exact ⟨_, decodeOfEncodeIsTheInstruction .dmul24 rfl, rfl⟩
  · obtain ⟨hop, hz, hw, hs⟩ := (rowSum_fits_iff (by decide) (by decide)).mp h
    exact ⟨_, (decode_of_asumOp hop).trans (decodeSum_w16 hz hw hs), rfl⟩
  · obtain ⟨hop, hz, hw, hs⟩ := (rowSum_fits_iff (by decide) (by decide)).mp h
    exact ⟨_, (decode_of_asumOp hop).trans (decodeSum_w24 hz hw hs), rfl⟩
  · obtain ⟨hop, hz, hw, hs⟩ := (rowSum_fits_iff (by decide) (by decide)).mp h
    exact ⟨_, (decode_of_dlinOp hop).trans (decodeSum_w16 hz hw hs), rfl⟩
  · obtain ⟨hop, hz, hw, hs⟩ := (rowSum_fits_iff (by decide) (by decide)).mp h
    exact ⟨_, (decode_of_dlinOp hop).trans (decodeSum_w24 hz hw hs), rfl⟩
  · obtain rfl := rowWord_fits_iff.mp h
    exact ⟨_, decodeOfEncodeIsTheInstruction .halt rfl, rfl⟩

end

/-- No two rows of R66 have one mnemonic. -/
theorem eq_of_mnemonic : ∀ row ∈ opcodeRows, ∀ other ∈ opcodeRows, other.mnemonic = row.mnemonic → other = row := by decide

/-- Settles O4: a word decodes exactly where it fits a row, and a row is known by its mnemonic. -/
theorem everyWordFitsOneRowOrIsIllegal : Obligations.EveryWordFitsOneRowOrIsIllegal := by
  intro w
  cases hd : decode w with
  | ok i =>
    obtain ⟨row, hrow, hfits, hname⟩ := exists_row_of_decode hd
    refine .inl ⟨i, row, rfl, hrow, hfits, hname, fun other hother hfits' => ?_⟩
    obtain ⟨j, hj, hname'⟩ := decode_of_fits hother hfits'
    obtain rfl : i = j := Except.ok.inj (hd.symm.trans hj)
    exact eq_of_mnemonic row hrow other hother (hname'.trans hname.symm)
  | error reason =>
    refine .inr ⟨reason, rfl, fun row hrow => ?_⟩
    rw [← Bool.not_eq_true]
    intro hfits
    obtain ⟨i, hi, -⟩ := decode_of_fits hrow hfits
    cases hd.symm.trans hi

/-- Settles O1: each worked word is evaluated. -/
theorem workedEncodingsDecodeAsListed : Obligations.WorkedEncodingsDecodeAsListed := by
  unfold Obligations.WorkedEncodingsDecodeAsListed
  decide

end Sys2Proof

namespace Sys2Proof.Machine

/-! ### Executing an illegal word or an ill-formed term (R70, R141). -/

theorem step_illegal {s : State} {w : Word} {reason : Illegal} (hi : s.inbox = []) (hr : s.runState = .run) (hp : s.pc.toNat < 256)
    (hw : programWord s.pmem s.pc.toNat = some w) (hd : decode w = .error reason) :
    step s = .next (s.raise .illegalInstruction) := by
  rw [step_eq, nextEvent_nil hi, taken_nil hi]
  exact sequencerTurn_illegal hr (fetch_word hp hw) hd

/-- Settles O5, opcode by opcode: a word is refused exactly where its format's decoder refuses it. -/
theorem illegalWordsAreTheListedOnes : Obligations.IllegalWordsAreTheListedOnes := by
  refine ⟨fun w => ?_, ⟨.reservedOpcode, by decide⟩, ⟨.mustBeZero, by decide⟩, fun s w reason => step_illegal⟩
  obtain h | h | h | h | h | h | h | h | h | h := opcode_cases w
  · rw [decode_of_vaddOp h, decodeR_error_iff]; simp [h]
  · rw [decode_of_vsubOp h, decodeR_error_iff]; simp [h]
  · rw [decode_of_vsaddOp h, decodeR_error_iff]; simp [h]
  · rw [decode_of_vhalveOp h, decodeU_error_iff]; simp [h]
  · rw [decode_of_vmul2kOp h, decodeK_error_iff, shiftLegal_eq_false_iff]; simp [h]
  · rw [decode_of_dmulOp h, decodeDmul_error_iff, zerosM_eq_false_iff]; simp [h]
  · rw [decode_of_asumOp h, decodeSum_error_iff, zerosM_eq_false_iff, sumField_illegal_iff]; simp [h]
  · rw [decode_of_dlinOp h, decodeSum_error_iff, zerosM_eq_false_iff, sumField_illegal_iff]; simp [h]
  · rw [decode_of_haltOp h, decodeZ_error_iff]; simp [h]
  · exact iff_of_true ⟨_, decode_of_reservedOp h⟩ (.inl h)

/-- Settles O28: such a term fails its legality test, which comes before anything else, and only well-formed terms are decoded to. -/
theorem illFormedTermsRaiseIllegalInstruction : Obligations.IllFormedTermsRaiseIllegalInstruction := by
  refine ⟨fun vd va k s hk => ?_, fun vs s hvs => ?_, fun vs s hvs => ?_, fun w i h => (decodedWordIsItsEncoding w i h).1⟩
  · have hl := (shiftLegal_eq_false_iff k).mpr hk
    exact ⟨congrArg _ (legal_bad s hl _), congrArg _ (legal_bad s hl _)⟩
  · have hl := (sumLegal_eq_false_iff .w16 vs).mpr hvs
    exact ⟨congrArg _ (legal_bad s hl _), congrArg _ (legal_bad s hl _)⟩
  · have hl := (sumLegal_eq_false_iff .w24 vs).mpr hvs
    exact ⟨congrArg _ (legal_bad s hl _), congrArg _ (legal_bad s hl _)⟩

end Sys2Proof.Machine
end

section
/-! PROOFS. The lane functions on single words (40_lane_primitives.md R80 to R85): each one's integer formula, its range and its residue;
and the lane primitive instructions built on them (R86 to R91). -/

namespace Sys2Proof.Machine

/-! ### Residues and the canonical range. -/

/-- One conditional addition and one conditional subtraction of `P` reduce any integer in `[-P, 2P)`. -/
theorem reduce_eq_emod {t : Int} (lo : -(Config.P : Int) ≤ t) (hi : t < 2 * Config.P) :
    (if t < 0 then t + Config.P else if (Config.P : Int) ≤ t then t - Config.P else t) = t % Config.P := by
  simp only [Config.P] at *
  split
  · omega
  · split <;> omega

theorem canon_of_toNat_eq_emod {w : Word} {t : Int} (h : (w.toNat : Int) = t % Config.P) : canon w = true := by
  have := Int.emod_lt_of_pos t (show (0 : Int) < Config.P by decide)
  rw [canon_iff]
  omega

theorem toNat_u32_emod (t : Int) : ((u32 (t % Config.P)).toNat : Int) = t % Config.P := by
  have lo := Int.emod_nonneg t (show (Config.P : Int) ≠ 0 by decide)
  have hi := Int.emod_lt_of_pos t (show (0 : Int) < Config.P by decide)
  exact toNat_u32 lo (hi.trans (by decide))

/-! ### Addition, subtraction and signed addition (R80, R81, R83). -/

section
variable {a b : Word}

/-- R80's formula: the conditional subtraction does not leave the word. -/
theorem toNat_fadd (ha : canon a = true) (hb : canon b = true) :
    (fadd a b).toNat = if Config.P ≤ a.toNat + b.toNat then a.toNat + b.toNat - Config.P else a.toNat + b.toNat := by
  rw [canon_iff] at ha hb
  rw [fadd, BitVec.toNat_ofNat, Nat.mod_eq_of_lt]
  simp only [Config.P] at *
  split <;> omega

theorem toNat_fadd_mod (ha : canon a = true) (hb : canon b = true) : (fadd a b).toNat = (a.toNat + b.toNat) % Config.P := by
  rw [toNat_fadd ha hb]
  rw [canon_iff] at ha hb
  split
  · rw [Nat.mod_eq_sub_mod ‹_›, Nat.mod_eq_of_lt (by omega)]
  · rw [Nat.mod_eq_of_lt (by omega)]

theorem canon_fadd (ha : canon a = true) (hb : canon b = true) : canon (fadd a b) = true :=
  canon_of_toNat_eq_emod (t := (a.toNat + b.toNat : Nat)) (by rw [toNat_fadd_mod ha hb, Int.natCast_emod])

/-- The difference of canonical words never needs the subtraction of `P`, so R81's two cases are a reduction. -/
theorem sub_reduce_eq_emod (ha : canon a = true) (hb : canon b = true) :
    (if (a.toNat : Int) - b.toNat < 0 then (a.toNat : Int) - b.toNat + Config.P else (a.toNat : Int) - b.toNat) =
      ((a.toNat : Int) - b.toNat) % Config.P := by
  rw [canon_iff] at ha hb
  rw [← reduce_eq_emod (by omega) (by omega), if_neg (show ¬(Config.P : Int) ≤ a.toNat - b.toNat by omega)]

theorem toNat_fsub_emod (ha : canon a = true) (hb : canon b = true) :
    ((fsub a b).toNat : Int) = ((a.toNat : Int) - b.toNat) % Config.P := by
  rw [← toNat_u32_emod, ← sub_reduce_eq_emod ha hb, fsub]

theorem canon_fsub (ha : canon a = true) (hb : canon b = true) : canon (fsub a b) = true :=
  canon_of_toNat_eq_emod (toNat_fsub_emod ha hb)

variable {w : Word}

/-- The sum of a canonical and a signed-range word is in the window that R83's three cases reduce. -/
theorem signedSum_reduce_eq_emod (ha : canon a = true) (hw : srange w = true) :
    (if (a.toNat : Int) + s32 w < 0 then (a.toNat : Int) + s32 w + Config.P
      else if (Config.P : Int) ≤ (a.toNat : Int) + s32 w then (a.toNat : Int) + s32 w - Config.P
      else (a.toNat : Int) + s32 w) = ((a.toNat : Int) + s32 w) % Config.P := by
  rw [canon_iff] at ha
  rw [srange_iff] at hw
  exact reduce_eq_emod (by omega) (by omega)

theorem toNat_fsadd_emod (ha : canon a = true) (hw : srange w = true) :
    ((fsadd a w).toNat : Int) = ((a.toNat : Int) + s32 w) % Config.P := by
  rw [← toNat_u32_emod, ← signedSum_reduce_eq_emod ha hw, fsadd]

theorem canon_fsadd (ha : canon a = true) (hw : srange w = true) : canon (fsadd a w) = true :=
  canon_of_toNat_eq_emod (toNat_fsadd_emod ha hw)

/-- R88's last remark: on a canonical second operand signed addition is field addition. -/
theorem fsadd_eq_fadd (ha : canon a = true) (hb : canon b = true) : fsadd a b = fadd a b := by
  refine BitVec.eq_of_toNat_eq (Int.ofNat_inj.mp ?_)
  rw [toNat_fsadd_emod ha (srange_of_canon hb), s32_of_canon hb, toNat_fadd_mod ha hb, Int.natCast_emod, Int.natCast_add]

end

/-- Settles O7: R80's formula, and its value as a residue. -/
theorem faddIsFieldAddition : Obligations.FaddIsFieldAddition := by
  intro a b ha hb
  refine ⟨?_, by decide, toNat_fadd ha hb, canon_fadd ha hb, toNat_fadd_mod ha hb⟩
  rw [canon_iff] at ha hb
  omega

/-- Settles O8: both of R81's cases are the residue of the difference. -/
theorem fsubIsFieldSubtraction : Obligations.FsubIsFieldSubtraction := fun _ _ ha hb =>
  ⟨(toNat_fsub_emod ha hb).trans (sub_reduce_eq_emod ha hb).symm, canon_fsub ha hb, toNat_fsub_emod ha hb⟩

/-- Settles O10: all three of R83's cases are the residue of the signed sum. -/
theorem fsaddIsSignedAddition : Obligations.FsaddIsSignedAddition := fun _ _ ha hw =>
  ⟨(toNat_fsadd_emod ha hw).trans (signedSum_reduce_eq_emod ha hw).symm, canon_fsadd ha hw, toNat_fsadd_emod ha hw⟩

/-! ### Halving (R82). -/

section
variable {a : Word}

theorem toNat_fhalve (ha : canon a = true) :
    (fhalve a).toNat = if a.toNat % 2 = 0 then a.toNat / 2 else a.toNat / 2 + Config.half := by
  rw [canon_iff] at ha
  simp only [Config.P] at ha
  simp only [fhalve, Config.half]
  split <;> rw [BitVec.toNat_ofNat, Nat.mod_eq_of_lt (by omega)]

theorem canon_fhalve (ha : canon a = true) : canon (fhalve a) = true := by
  rw [canon_iff, toNat_fhalve ha]
  rw [canon_iff] at ha
  simp only [Config.P, Config.half] at *
  split <;> omega

/-- An even word's half doubles to the word, an odd word's to the word plus `P`. -/
theorem two_mul_fhalve_mod (ha : canon a = true) : 2 * (fhalve a).toNat % Config.P = a.toNat := by
  rw [toNat_fhalve ha]
  rw [canon_iff] at ha
  simp only [Config.P, Config.half] at *
  split <;> omega

end

/-- `P` is odd, so doubling is injective on `[0, P)`. -/
theorem eq_of_two_mul_mod_eq {h h' : Nat} (lt : h < Config.P) (lt' : h' < Config.P)
    (e : 2 * h % Config.P = 2 * h' % Config.P) : h = h' := by
  have odd : Nat.gcd Config.P 2 = 1 := by decide
  exact (Nat.ModEq.cancel_left_of_coprime odd e).eq_of_lt_of_lt lt lt'

/-- Settles O9: `fhalve a` doubles to `a`, and no other word below `P` does. -/
theorem fhalveIsTheUniqueHalf : Obligations.FhalveIsTheUniqueHalf := fun a ha =>
  ⟨by rw [toNat_fhalve ha, Nat.shiftRight_eq_div_pow], canon_fhalve ha, two_mul_fhalve_mod ha,
    fun _ lt e => eq_of_two_mul_mod_eq lt ((canon_iff _).mp (canon_fhalve ha)) (e.trans (two_mul_fhalve_mod ha).symm)⟩

/-! ### Multiplication by `2^-k` and `-2^-k` (R84, R85). -/

/-- R84's formula as the document writes it, with shifts and a mask. -/
theorem mul2kValue_eq_shifts (a : Word) (k : Nat) :
    mul2kValue a k = (a.toNat >>> k : Nat) - (((127 * (a.toNat &&& (2 ^ k - 1))) <<< (24 - k) : Nat) : Int) := by
  rw [Nat.shiftRight_eq_div_pow, Nat.and_two_pow_sub_one_eq_mod, Nat.shiftLeft_eq]
  rfl

/-- Why `2^k * y` is `a` modulo `P`: the low part `lo` is cancelled by `lo * P`, as `P = 127 * 2^24 + 1`. -/
theorem two_pow_mul_mul2kValue (a : Word) {k : Nat} (hk : k ≤ 24) :
    2 ^ k * mul2kValue a k = a.toNat - Config.P * (a.toNat % 2 ^ k : Nat) := by
  have parts : (2 ^ k * (a.toNat / 2 ^ k : Nat) + (a.toNat % 2 ^ k : Nat) : Int) = a.toNat := by
    exact_mod_cast Nat.div_add_mod a.toNat (2 ^ k)
  have full : (2 ^ k * 2 ^ (24 - k) : Int) = 2 ^ 24 := by rw [← pow_add, Nat.add_sub_cancel' hk]
  simp only [mul2kValue, Config.r, Config.j, Config.P]
  push_cast at *
  linear_combination parts - 127 * ((a.toNat : Int) % 2 ^ k) * full

/-- The low part, shifted up, stays a step of `2^(24-k)` below `2^24`. -/
theorem low_shifted_lt (n : Nat) {k : Nat} (hk : k ≤ 24) : n % 2 ^ k * 2 ^ (24 - k) < 2 ^ 24 := by
  calc n % 2 ^ k * 2 ^ (24 - k) < 2 ^ k * 2 ^ (24 - k) :=
        Nat.mul_lt_mul_of_pos_right (Nat.mod_lt _ (Nat.two_pow_pos k)) (Nat.two_pow_pos _)
    _ = 2 ^ 24 := by rw [← pow_add, Nat.add_sub_cancel' hk]

/-- R90's bound: `y` is at least `-(P-1) + 127`, as `hi >= 0` and `lo * 2^(24-k) <= 2^24 - 1`. -/
theorem le_mul2kValue (a : Word) {k : Nat} (hk : k ≤ 24) : -2130706305 ≤ mul2kValue a k := by
  have low := low_shifted_lt a.toNat hk
  have high := Int.natCast_nonneg (a.toNat / 2 ^ k)
  simp only [mul2kValue, Config.r, Config.j, Nat.mul_assoc]
  omega

section
variable {a : Word} {k : Nat}

theorem mul2kValue_lt (ha : canon a = true) : mul2kValue a k < Config.P := by
  have hi := Nat.div_le_self a.toNat (2 ^ k)
  rw [canon_iff] at ha
  simp only [mul2kValue]
  omega

theorem s32_fmul2k (ha : canon a = true) (hk : k ≤ 24) : s32 (fmul2k a k) = mul2kValue a k := by
  have lo := le_mul2kValue a hk
  have hi := mul2kValue_lt (k := k) ha
  exact s32_u32 (le_trans (by decide) lo) (hi.trans (by decide))

theorem s32_fnmul2k (ha : canon a = true) (hk : k ≤ 24) : s32 (fnmul2k a k) = -mul2kValue a k := by
  have lo := le_mul2kValue a hk
  have hi := mul2kValue_lt (k := k) ha
  simp only [Config.P] at hi
  exact s32_u32 (by omega) (by omega)

theorem srange_fmul2k (ha : canon a = true) (hk : k ≤ 24) : srange (fmul2k a k) = true := by
  have lo := le_mul2kValue a hk
  rw [srange_iff, s32_fmul2k ha hk]
  exact ⟨lt_of_lt_of_le (by decide) lo, mul2kValue_lt ha⟩

theorem srange_fnmul2k (ha : canon a = true) (hk : k ≤ 24) : srange (fnmul2k a k) = true := by
  obtain ⟨lo, hi⟩ := (srange_iff _).mp (srange_fmul2k ha hk)
  rw [s32_fmul2k ha hk] at lo hi
  rw [srange_iff, s32_fnmul2k ha hk]
  exact ⟨neg_lt_neg hi, neg_lt.mp lo⟩

theorem two_pow_mul_fmul2k_emod (ha : canon a = true) (hk : k ≤ 24) :
    2 ^ k * s32 (fmul2k a k) % (Config.P : Int) = a.toNat := by
  rw [s32_fmul2k ha hk, two_pow_mul_mul2kValue a hk, Int.sub_mul_emod_self_left]
  exact Int.emod_eq_of_lt (Int.natCast_nonneg _) (Int.ofNat_lt.mpr ((canon_iff a).mp ha))

theorem two_pow_mul_fnmul2k_emod (ha : canon a = true) (hk : k ≤ 24) :
    2 ^ k * s32 (fnmul2k a k) % (Config.P : Int) = -(a.toNat : Int) % Config.P := by
  rw [s32_fnmul2k ha hk, mul_neg, two_pow_mul_mul2kValue a hk, neg_sub, sub_eq_add_neg, add_comm, Int.add_mul_emod_self_left]

/-- On an exact multiple of `2^k` the low part is 0 and the value is the quotient. -/
theorem mul2kValue_of_multiple {q : Nat} (h : a.toNat = q * 2 ^ k) : mul2kValue a k = q := by
  simp [mul2kValue, h]

end

/-- Settles O11: the signed value of the word is `mul2kValue`, and `2^k` times that is `a - lo * P`. -/
theorem fmul2kMultipliesByTwoToMinusK : Obligations.Fmul2kMultipliesByTwoToMinusK := by
  have value (a : Word) (k : Nat) (ha : canon a = true) (hk : k ≤ 24) :=
    (s32_fmul2k ha hk).trans (mul2kValue_eq_shifts a k)
  refine ⟨fun a k ha _ hk => ⟨?_, ?_, value a k ha hk, srange_fmul2k ha hk, two_pow_mul_fmul2k_emod ha hk⟩,
    fun a ha => value a 8 ha (by decide)⟩
  · rw [canon_iff] at ha
    rw [Nat.shiftRight_eq_div_pow]
    refine Nat.div_lt_of_lt_mul ?_
    rw [← pow_add, Nat.add_sub_cancel' (by omega)]
    exact ha.trans (by decide)
  · rw [Nat.and_two_pow_sub_one_eq_mod]
    exact Nat.mod_lt _ (Nat.two_pow_pos k)

/-- Settles O12: the signed value of the word is minus `mul2kValue`. -/
theorem fnmul2kIsTheNegation : Obligations.Fnmul2kIsTheNegation := fun a k ha _ hk =>
  ⟨by rw [s32_fnmul2k ha hk, mul2kValue_eq_shifts, neg_sub], by rw [s32_fnmul2k ha hk, s32_fmul2k ha hk],
    srange_fnmul2k ha hk, two_pow_mul_fnmul2k_emod ha hk⟩

/-! ### What the template of R93 leaves in the registers. -/

section
variable (f : Word → Word → Word) (g : Word → Word) {vd va vb n : VReg} (v : RegFile)

theorem binaryRegs_lane (l : Fin 8) : (binaryRegs f vd va vb v)[vd][l] = f v[va][l] v[vb][l] := by
  simp [binaryRegs]

theorem binaryRegs_other (h : n ≠ vd) : (binaryRegs f vd va vb v)[n] = v[n] :=
  frame_set _ _ _ _ (decide_eq_false h)

theorem unaryRegs_lane (l : Fin 8) : (unaryRegs g vd va v)[vd][l] = g v[va][l] := by
  simp [unaryRegs]

theorem unaryRegs_other (h : n ≠ vd) : (unaryRegs g vd va v)[n] = v[n] :=
  frame_set _ _ _ _ (decide_eq_false h)

end

/-- Two lane functions that agree on the sources' lanes leave the same registers. -/
theorem binaryRegs_congr {f g : Word → Word → Word} {va vb : VReg} {v : RegFile} (vd : VReg)
    (h : ∀ l : Fin 8, f v[va][l] v[vb][l] = g v[va][l] v[vb][l]) : binaryRegs f vd va vb v = binaryRegs g vd va vb v := by
  have lanes : lanes2 f v[va] v[vb] = lanes2 g v[va] v[vb] :=
    laneVec_ext fun l => by simpa using h l
  rw [binaryRegs, lanes, binaryRegs]

/-! ### A lane primitive in full (R93): with operands in range it completes, each lane having the property `Q` that `f` has there; otherwise
it raises OperandRange. -/

section
variable {i : Instr} {s : State} {vd va vb : VReg}

theorem unaryInstr_spec {f : Word → Word} {Q : Word → Word → Prop} (legal : i.wellFormed = true) (hi : i ≠ .halt)
    (operands : operandsInRange i s = decide (s.canonReg va)) (result : resultRegs i s.v = unaryRegs f vd va s.v)
    (hQ : ∀ a, canon a = true → Q a (f a)) :
    ((∀ l : Fin 8, canon s.v[va][l] = true) →
      ∃ t, exec i s = .next t ∧ (∀ l : Fin 8, t.v[vd][l] = f s.v[va][l] ∧ Q s.v[va][l] t.v[vd][l]) ∧
        (∀ n : VReg, n ≠ vd → t.v[n] = s.v[n]) ∧ t = { s with v := t.v, pc := s.pc + 1 }) ∧
    ((∃ l : Fin 8, canon s.v[va][l] = false) →
      exec i s = .next { s with cause := some .operandRange, runState := .fault }) := by
  constructor
  · intro ha
    have done := exec_of_operandsInRange legal (operands.trans (decide_eq_true ha)) hi
    rw [result] at done
    refine ⟨_, done, fun l => ?_, fun n hn => unaryRegs_other _ _ hn, rfl⟩
    rw [State.completed_v, unaryRegs_lane]
    exact ⟨rfl, hQ _ (ha l)⟩
  · rintro ⟨l, hl⟩
    have bad : ¬s.canonReg va := fun ha => Bool.eq_false_iff.mp hl (ha l)
    exact exec_of_not_operandsInRange legal (operands.trans (decide_eq_false bad))

theorem binaryInstr_spec {range : Word → Bool} {f : Word → Word → Word} {Q : Word → Word → Word → Prop}
    (legal : i.wellFormed = true) (hi : i ≠ .halt)
    (operands : operandsInRange i s = decide (s.canonReg va ∧ ∀ l : Fin 8, range s.v[vb][l] = true))
    (result : resultRegs i s.v = binaryRegs f vd va vb s.v)
    (hQ : ∀ a b, canon a = true → range b = true → Q a b (f a b)) :
    ((∀ l : Fin 8, canon s.v[va][l] = true ∧ range s.v[vb][l] = true) →
      ∃ t, exec i s = .next t ∧
        (∀ l : Fin 8, t.v[vd][l] = f s.v[va][l] s.v[vb][l] ∧ Q s.v[va][l] s.v[vb][l] t.v[vd][l]) ∧
        (∀ n : VReg, n ≠ vd → t.v[n] = s.v[n]) ∧ t = { s with v := t.v, pc := s.pc + 1 }) ∧
    ((∃ l : Fin 8, canon s.v[va][l] = false ∨ range s.v[vb][l] = false) →
      exec i s = .next { s with cause := some .operandRange, runState := .fault }) := by
  constructor
  · intro h
    have done := exec_of_operandsInRange legal (operands.trans (decide_eq_true (forall_and.mp h))) hi
    rw [result] at done
    refine ⟨_, done, fun l => ?_, fun n hn => binaryRegs_other _ _ hn, rfl⟩
    rw [State.completed_v, binaryRegs_lane]
    exact ⟨rfl, hQ _ _ (h l).1 (h l).2⟩
  · rintro ⟨l, hl⟩
    have bad : ¬(s.canonReg va ∧ ∀ l : Fin 8, range s.v[vb][l] = true) := fun ⟨ha, hb⟩ =>
      hl.elim (Bool.eq_false_iff.mp · (ha l)) (Bool.eq_false_iff.mp · (hb l))
    exact exec_of_not_operandsInRange legal (operands.trans (decide_eq_false bad))

/-- R88: with both sources canonical VSADD is VADD. -/
theorem exec_vsadd_eq_vadd (vd : VReg) (ha : s.canonReg va) (hb : s.canonReg vb) :
    exec (.vsadd vd va vb) s = exec (.vadd vd va vb) s := by
  have signed : s.signedReg vb := fun l => srange_of_canon (hb l)
  have same : resultRegs (.vsadd vd va vb) s.v = resultRegs (.vadd vd va vb) s.v :=
    binaryRegs_congr vd fun l => fsadd_eq_fadd (ha l) (hb l)
  rw [exec_of_operandsInRange (i := .vsadd vd va vb) rfl (decide_eq_true ⟨ha, signed⟩) (by simp), same,
    exec_of_operandsInRange (i := .vadd vd va vb) rfl (decide_eq_true ⟨ha, hb⟩) (by simp)]

end

/-! ### The instructions of R86 to R91. -/

theorem toNat_fadd_of_sum_eq {a b : Word} (h : a.toNat + b.toNat = Config.P) : (fadd a b).toNat = 0 := by
  simp [fadd, h]

theorem fsub_self (a : Word) : fsub a a = 0#32 := by
  simp [fsub, u32]

/-- The signed sum decides the result of `fsadd`, as a number below `P` (R88's corner cases). -/
theorem toNat_fsadd_of_sum {a w : Word} {r : Nat} (ha : canon a = true) (hw : srange w = true)
    (h : ((a.toNat : Int) + s32 w) % Config.P = r) : (fsadd a w).toNat = r :=
  Int.ofNat_inj.mp ((toNat_fsadd_emod ha hw).trans h)

/-- Settles O16: R93 for `fadd`, whose residue R80 gives. -/
theorem vaddAddsLanesInTheField : Obligations.VaddAddsLanesInTheField :=
  ⟨fun vd va vb _ => ⟨(encodeRU_fields (by decide) vb.isLt vd va).1,
    binaryInstr_spec (Q := fun a b y => y.toNat = (a.toNat + b.toNat) % Config.P) rfl (by simp) rfl rfl
      fun _ _ => toNat_fadd_mod⟩,
    fun _ _ => toNat_fadd_of_sum_eq, by decide, by decide⟩

/-- Settles O17: R93 for `fsub`; a register minus itself is 0 in every lane. -/
theorem vsubSubtractsLanesInTheField : Obligations.VsubSubtractsLanesInTheField := by
  refine ⟨fun vd va vb s => ⟨(encodeRU_fields (by decide) vb.isLt vd va).1, ?_⟩, fsub_self, by decide, by decide⟩
  obtain ⟨ok, bad⟩ := binaryInstr_spec (i := .vsub vd va vb) (s := s)
    (Q := fun a b y => (y.toNat : Int) = ((a.toNat : Int) - b.toNat) % Config.P) rfl (by simp) rfl rfl
    fun _ _ => toNat_fsub_emod
  refine ⟨fun h => ?_, bad⟩
  obtain ⟨t, done, lanes, frame⟩ := ok h
  exact ⟨t, done, lanes, fun e l => by rw [(lanes l).1, e, fsub_self], frame⟩

/-- Settles O18: R93 for `fsadd`; the corner cases are residues of the signed sum. -/
theorem vsaddAddsSignedLanes : Obligations.VsaddAddsSignedLanes := by
  refine ⟨fun vd va vb s => ⟨(encodeRU_fields (by decide) vb.isLt vd va).1, ?_⟩,
    fun a w ha hw e => toNat_fsadd_of_sum ha hw (by rw [e]; decide),
    fun a w ha hw e => toNat_fsadd_of_sum ha hw (by rw [e]; decide),
    fun w e => by rw [fsadd, e]; decide, by decide, fun w lo hi => ?_, by decide⟩
  · obtain ⟨ok, bad⟩ := binaryInstr_spec (i := .vsadd vd va vb) (s := s) (range := srange)
      (Q := fun a b y => (y.toNat : Int) = ((a.toNat : Int) + s32 b) % Config.P) rfl (by simp) rfl rfl
      fun _ _ => toNat_fsadd_emod
    refine ⟨fun h => ?_, bad⟩
    obtain ⟨t, done, lanes, frame⟩ := ok h
    exact ⟨t, done, lanes, exec_vsadd_eq_vadd vd fun l => (h l).1, frame⟩
  · obtain ⟨-, -, -, -, gap⟩ := operandRangesAsUnsignedSets w
    exact (gap lo hi).2

/-- Settles O19: R93 for `fhalve`, whose double R82 gives. -/
theorem vhalveHalvesLanesInTheField : Obligations.VhalveHalvesLanesInTheField :=
  ⟨fun vd va _ => ⟨(encodeRU_fields (by decide) (by decide) vd va).1,
    unaryInstr_spec (Q := fun a y => canon y = true ∧ 2 * y.toNat % Config.P = a.toNat) rfl (by simp) rfl rfl
      fun _ ha => ⟨canon_fhalve ha, two_mul_fhalve_mod ha⟩⟩,
    by decide⟩

/-- R70: a word of format K with opcode 0x05 and a shift count outside 1 to 24 is illegal, whatever its other fields. -/
theorem decode_error_of_shiftCount {w : Word} (hop : bits w 31 26 = 0x05) (hk : bits w 4 0 = 0 ∨ 24 < bits w 4 0) :
    ∃ reason, decode w = .error reason := by
  rw [decode_of_vmul2kOp hop, decodeK_error_iff, shiftLegal_eq_false_iff]
  exact .inr hk

/-- The opcode and the sign bit `n` of a multiply-by-2^-k word (R66). -/
theorem encodeK_op_sign {n k : Nat} (hn : n < 2) (hk : k ≤ 24) (vd va : VReg) :
    bits (encodeK 0x05 vd va n k) 31 26 = 0x05 ∧ bits (encodeK 0x05 vd va n k) 5 5 = n := by
  obtain ⟨op, -, -, -, sign, -⟩ := encodeK_fields (op := 0x05) (by decide) hn (show k < 32 by omega) vd va
  exact ⟨op, sign⟩

theorem toNat_fmul2k_of_multiple {a : Word} {k q : Nat} (h : a.toNat = q * 2 ^ k) : (fmul2k a k).toNat = q := by
  have small : q ≤ a.toNat := h ▸ Nat.le_mul_of_pos_right q (Nat.two_pow_pos k)
  rw [fmul2k, mul2kValue_of_multiple h]
  exact Int.ofNat_inj.mp (toNat_u32 (Int.natCast_nonneg q) (by omega))

theorem mul2kValue_one {k : Nat} (lo : 1 ≤ k) : mul2kValue 1#32 k = -((127 * 2 ^ (24 - k) : Nat) : Int) := by
  have one : 1 < 2 ^ k := Nat.one_lt_two_pow (by omega)
  simp [mul2kValue, Nat.div_eq_of_lt one, Nat.mod_eq_of_lt one]

/-- Settles O20: R93 for `fmul2k`, whose range and residue R84 gives. -/
theorem vmul2kMultipliesLanesByTwoToMinusK : Obligations.Vmul2kMultipliesLanesByTwoToMinusK := by
  refine ⟨fun vd va k s lo hk => ?_, fun w hop _ => decode_error_of_shiftCount hop,
    fun _ _ _ _ _ _ => toNat_fmul2k_of_multiple, fun k lo hk => ?_, by decide, by decide, fun a k ha _ hk => ?_, by decide⟩
  · obtain ⟨op, sign⟩ := encodeK_op_sign (n := 0) (by decide) hk vd va
    exact ⟨op, sign, unaryInstr_spec (i := .vmul2k vd va k)
      (Q := fun a y => srange y = true ∧ 2 ^ k * s32 y % (Config.P : Int) = a.toNat)
      ((shiftLegal_iff k).mpr ⟨lo, hk⟩) (by simp) rfl rfl
      fun _ ha => ⟨srange_fmul2k ha hk, two_pow_mul_fmul2k_emod ha hk⟩⟩
  · rw [s32_fmul2k (by decide) hk, mul2kValue_one lo]
  · rw [s32_fmul2k ha hk]
    exact le_mul2kValue a hk

/-- Settles O21: R93 for `fnmul2k`, whose range and residue R85 gives. -/
theorem vnmul2kMultipliesLanesByMinusTwoToMinusK : Obligations.Vnmul2kMultipliesLanesByMinusTwoToMinusK := by
  refine ⟨fun vd va k s lo hk => ?_, fun w hop _ => decode_error_of_shiftCount hop, fun a k q _ _ _ h => ?_,
    by decide, fun k _ _ => ?_, by decide, by decide⟩
  · obtain ⟨op, sign⟩ := encodeK_op_sign (n := 1) (by decide) hk vd va
    exact ⟨op, sign, unaryInstr_spec (i := .vnmul2k vd va k)
      (Q := fun a y => srange y = true ∧ 2 ^ k * s32 y % (Config.P : Int) = -(a.toNat : Int) % Config.P)
      ((shiftLegal_iff k).mpr ⟨lo, hk⟩) (by simp) rfl rfl
      fun _ ha => ⟨srange_fnmul2k ha hk, two_pow_mul_fnmul2k_emod ha hk⟩⟩
  · rw [fnmul2k, mul2kValue_of_multiple h]
  · rw [fnmul2k, mul2kValue_of_multiple (a := 0#32) (q := 0) (Nat.zero_mul _).symm]
    rfl

end Sys2Proof.Machine
end

section
/-! PROOFS. The diagonal layer on single words (41_diagonal_layer.md R100 to R105): the printed tables, what each kind and each group computes,
and that a table's row multiplies by its entry. -/

namespace Sys2Proof.Machine

/-! ### The tables (R100, R101). -/

/-- Settles O13: outside the state there is no row, and the columns are evaluated. -/
theorem diagonalTablesAreAsPrinted : Obligations.DiagonalTablesAreAsPrinted := by
  refine ⟨fun w i hi => ?_, by decide, by decide, by decide, by decide⟩
  cases i with
  | zero => rfl
  | succ i =>
    have length : (diagTable w).length = w.positions - 1 := by cases w <;> rfl
    exact List.getElem?_eq_none (by omega)

/-- The number that a kind multiplies by (R103). -/
def Kind.factor : Kind → DiagEntry
  | .one => ⟨1, 0⟩
  | .dbl => ⟨2, 0⟩
  | .half => ⟨1, 1⟩
  | .tri => ⟨3, 0⟩
  | .quad => ⟨4, 0⟩
  | .p2k k => ⟨1, k⟩
  | .n2k k => ⟨-1, k⟩

/-- The sign with which a group takes its word to the sum (R105). -/
def Group.sign : Group → Int
  | .add => 1
  | .sub => -1
  | .sadd => 1

/-- The shift counts of a kind are legal (R63). -/
def Kind.legal : Kind → Bool
  | .p2k k => shiftLegal k
  | .n2k k => shiftLegal k
  | .one | .dbl | .half | .tri | .quad => true

/-- The kinds whose result is canonical (R103, the range column). -/
def Kind.canonical : Kind → Bool
  | .p2k _ => false
  | .n2k _ => false
  | .one | .dbl | .half | .tri | .quad => true

/-- What the columns of one row have to do with each other (R103, R105): the kind is legal, its result is what the group requires, and the
entry is the kind's factor with the group's sign. -/
structure DiagRow.Consistent (r : DiagRow) : Prop where
  legal : r.kind.legal = true
  range : r.kind.canonical = true ∨ r.group = .sadd
  entry : r.entry = ⟨r.group.sign * r.kind.factor.num, r.kind.factor.exp⟩

/-- Every row of both tables is consistent. -/
theorem row_consistent {w : Width} {i : Nat} {r : DiagRow} (h : row w i = some r) : r.Consistent := by
  have rows : ∀ r ∈ diagTable w, r.kind.legal = true ∧ (r.kind.canonical = true ∨ r.group = .sadd) ∧
      r.entry = ⟨r.group.sign * r.kind.factor.num, r.kind.factor.exp⟩ := by cases w <;> decide
  cases i with
  | zero => cases h
  | succ i =>
    obtain ⟨legal, range, entry⟩ := rows r (List.mem_of_getElem? h)
    exact ⟨legal, range, entry⟩

/-! ### The kinds (R103). -/

section
variable {x : Word}

theorem toNat_dk_dbl (hx : canon x = true) : (dk .dbl x).toNat = 2 * x.toNat % Config.P := by
  rw [dk, toNat_fadd_mod hx hx, ← Nat.two_mul]

theorem toNat_dk_tri (hx : canon x = true) : (dk .tri x).toNat = 3 * x.toNat % Config.P := by
  rw [dk, toNat_fadd_mod (canon_fadd hx hx) hx, toNat_fadd_mod hx hx, Nat.mod_add_mod]
  congr 1
  omega

theorem toNat_dk_quad (hx : canon x = true) : (dk .quad x).toNat = 4 * x.toNat % Config.P := by
  rw [dk, toNat_fadd_mod (canon_fadd hx hx) (canon_fadd hx hx), toNat_fadd_mod hx hx, ← Nat.add_mod]
  congr 1
  omega

theorem canon_dk {kind : Kind} (hk : kind.canonical = true) (hx : canon x = true) : canon (dk kind x) = true := by
  cases kind with
  | one => exact hx
  | dbl => exact canon_fadd hx hx
  | half => exact canon_fhalve hx
  | tri => exact canon_fadd (canon_fadd hx hx) hx
  | quad => exact canon_fadd (canon_fadd hx hx) (canon_fadd hx hx)
  | p2k k => cases hk
  | n2k k => cases hk

theorem srange_dk {kind : Kind} (hk : kind.legal = true) (hx : canon x = true) : srange (dk kind x) = true := by
  cases kind with
  | one | dbl | half | tri | quad => exact srange_of_canon (canon_dk rfl hx)
  | p2k k => exact srange_fmul2k hx ((shiftLegal_iff k).mp hk).2
  | n2k k => exact srange_fnmul2k hx ((shiftLegal_iff k).mp hk).2

theorem mul2kValue_zero (k : Nat) : mul2kValue 0#32 k = 0 := mul2kValue_of_multiple (q := 0) (Nat.zero_mul _).symm

theorem dk_zero (kind : Kind) : dk kind 0#32 = 0#32 := by
  cases kind with
  | one | dbl | half | tri | quad => rfl
  | p2k k =>
    rw [dk, fmul2k, mul2kValue_zero]
    rfl
  | n2k k =>
    rw [dk, fnmul2k, mul2kValue_zero]
    rfl

end

/-- Settles O14, kind by kind: each result is that of the lane function behind it. -/
theorem kindsRealiseTheirEntries : Obligations.KindsRealiseTheirEntries := fun _ hx =>
  ⟨rfl, ⟨rfl, canon_dk rfl hx, toNat_dk_dbl hx⟩, ⟨rfl, canon_dk rfl hx, two_mul_fhalve_mod hx⟩,
    ⟨rfl, canon_dk rfl hx, toNat_dk_tri hx⟩, ⟨rfl, canon_dk rfl hx, toNat_dk_quad hx⟩,
    fun _ _ hk => ⟨⟨rfl, srange_fmul2k hx hk, two_pow_mul_fmul2k_emod hx hk⟩,
      ⟨rfl, srange_fnmul2k hx hk, two_pow_mul_fnmul2k_emod hx hk⟩⟩⟩

/-! ### A kind multiplies by its factor. -/

/-- An entry as an integer that stands for it modulo P: HALF stands for 1/2 (R100). -/
def DiagEntry.value (d : DiagEntry) : Int := d.num * (Config.half : Int) ^ d.exp

theorem DiagEntry.residue_modEq (d : DiagEntry) : (d.residue : Int) ≡ d.value [ZMOD Config.P] := by
  rw [residue, Int.toNat_of_nonneg (Int.emod_nonneg _ (by decide))]
  exact Int.mod_modEq _ _

/-- HALF is the inverse of 2, so what doubles `k` times to `x` is `HALF^k * x`. -/
theorem modEq_half_pow_mul {k : Nat} {x y : Int} (h : 2 ^ k * y ≡ x [ZMOD Config.P]) :
    y ≡ (Config.half : Int) ^ k * x [ZMOD Config.P] := by
  have inverse : (Config.half : Int) * 2 ≡ 1 [ZMOD Config.P] := by decide
  calc y = 1 ^ k * y := by rw [one_pow, one_mul]
    _ ≡ ((Config.half : Int) * 2) ^ k * y [ZMOD Config.P] := ((inverse.pow k).mul_right y).symm
    _ = (Config.half : Int) ^ k * (2 ^ k * y) := by rw [mul_pow, mul_assoc]
    _ ≡ (Config.half : Int) ^ k * x [ZMOD Config.P] := h.mul_left _

/-- A canonical word that is `m * x` modulo P. -/
theorem s32_modEq_of_toNat {m : Nat} {x y : Word} (h : y.toNat = m * x.toNat % Config.P) :
    s32 y ≡ m * x.toNat [ZMOD Config.P] := by
  rw [s32_of_canon (canon_of_toNat_eq_emod (t := (m * x.toNat : Nat)) (by rw [h, Int.natCast_emod])), h]
  push_cast
  exact Int.mod_modEq _ _

/-- The value column of R103: as a signed number, `dk(kind, x)` is the kind's factor times `x`, modulo P. -/
theorem s32_dk_modEq {kind : Kind} (hk : kind.legal = true) {x : Word} (hx : canon x = true) :
    s32 (dk kind x) ≡ kind.factor.value * x.toNat [ZMOD Config.P] := by
  cases kind with
  | one => simp [dk, Kind.factor, DiagEntry.value, s32_of_canon hx]
  | dbl => simpa [Kind.factor, DiagEntry.value] using s32_modEq_of_toNat (toNat_dk_dbl hx)
  | tri => simpa [Kind.factor, DiagEntry.value] using s32_modEq_of_toNat (toNat_dk_tri hx)
  | quad => simpa [Kind.factor, DiagEntry.value] using s32_modEq_of_toNat (toNat_dk_quad hx)
  | half =>
    have double : 2 ^ 1 * s32 (fhalve x) ≡ x.toNat [ZMOD Config.P] := by
      rw [s32_of_canon (canon_fhalve hx), ← two_mul_fhalve_mod hx, Int.natCast_emod]
      exact (Int.mod_modEq _ _).symm
    simpa [dk, Kind.factor, DiagEntry.value] using modEq_half_pow_mul double
  | p2k k =>
    have h := two_pow_mul_fmul2k_emod hx ((shiftLegal_iff k).mp hk).2
    simpa [dk, Kind.factor, DiagEntry.value] using modEq_half_pow_mul (h ▸ (Int.mod_modEq _ _).symm)
  | n2k k =>
    have h := two_pow_mul_fnmul2k_emod hx ((shiftLegal_iff k).mp hk).2
    simpa [dk, Kind.factor, DiagEntry.value] using modEq_half_pow_mul (h : _ ≡ _ [ZMOD _])

/-! ### The groups (R105). -/

theorem Group.range_of_canon (group : Group) {y : Word} (hy : canon y = true) : group.range y = true := by
  cases group with
  | add | sub => exact hy
  | sadd => exact srange_of_canon hy

theorem Group.srange_of_range {group : Group} {y : Word} (hy : group.range y = true) : srange y = true := by
  cases group with
  | add | sub => exact srange_of_canon hy
  | sadd => exact hy

section
variable {group : Group} {s y : Word}

/-- The value column of R105: the sum, plus or minus the signed word, modulo P. -/
theorem toNat_ag_emod (hs : canon s = true) (hy : group.range y = true) :
    ((ag group s y).toNat : Int) = (s.toNat + group.sign * s32 y) % Config.P := by
  cases group with
  | add => rw [ag, toNat_fadd_mod hs hy, s32_of_canon hy, Group.sign, one_mul, Int.natCast_emod, Int.natCast_add]
  | sub => rw [ag, toNat_fsub_emod hs hy, s32_of_canon hy, Group.sign, neg_one_mul, Int.sub_eq_add_neg]
  | sadd => rw [ag, toNat_fsadd_emod hs hy, Group.sign, one_mul]

theorem canon_ag (hs : canon s = true) (hy : group.range y = true) : canon (ag group s y) = true :=
  canon_of_toNat_eq_emod (toNat_ag_emod hs hy)

end

/-- The group of a position in both tables (R105). -/
theorem row_group {w : Width} {i : Nat} (lo : 1 ≤ i) (hi : i < w.positions) : (row w i).map (·.group) = some (groupAt i) := by
  have small : w.positions ≤ 24 := by cases w <;> decide
  obtain ⟨r, hr, -, hg, -⟩ := row_columns w ⟨i, by omega⟩ lo hi
  rw [hr, Option.map_some, hg]

/-- Settles O15: the groups are the lane functions `fadd`, `fsub` and `fsadd`. -/
theorem groupsFoldTheSumIn : Obligations.GroupsFoldTheSumIn :=
  ⟨fun _ _ hs => ⟨fun hy => ⟨rfl, canon_fadd hs hy, toNat_fadd_mod hs hy⟩, fun hy => ⟨rfl, canon_fsub hs hy, toNat_fsub_emod hs hy⟩,
    fun hy => ⟨rfl, canon_fsadd hs hy, toNat_fsadd_emod hs hy⟩⟩,
    fun _ => ⟨rfl, rfl, rfl⟩, fun _ _ => row_group⟩

/-! ### A row of a table: kind and group together. -/

section
variable {w : Width} {i : Nat} {r : DiagRow} (hr : row w i = some r) {s x : Word}
include hr

/-- What DMUL leaves at a position is what ASUM requires there (R103, R105). -/
theorem range_dk_of_row (hx : canon x = true) : r.group.range (dk r.kind x) = true := by
  obtain ⟨legal, canonical | sadd, -⟩ := row_consistent hr
  · exact r.group.range_of_canon (canon_dk canonical hx)
  · rw [sadd]
    exact srange_dk legal hx

/-- R113 at one position of one lane: the sum plus the entry times the word. -/
theorem toNat_dlinLane (hs : canon s = true) (hx : canon x = true) :
    (dlinLane r s x).toNat = (s.toNat + r.entry.residue * x.toNat) % Config.P := by
  obtain ⟨legal, -, entry⟩ := row_consistent hr
  have value : r.entry.value = r.group.sign * r.kind.factor.value := by rw [entry, DiagEntry.value, DiagEntry.value, mul_assoc]
  have product : r.group.sign * s32 (dk r.kind x) ≡ r.entry.residue * x.toNat [ZMOD Config.P] := by
    calc r.group.sign * s32 (dk r.kind x) ≡ r.group.sign * (r.kind.factor.value * x.toNat) [ZMOD Config.P] :=
          (s32_dk_modEq legal hx).mul_left _
      _ = r.entry.value * x.toNat := by rw [value, mul_assoc]
      _ ≡ r.entry.residue * x.toNat [ZMOD Config.P] := (r.entry.residue_modEq.mul_right _).symm
  refine Int.ofNat_inj.mp ?_
  rw [dlinLane, toNat_ag_emod hs (range_dk_of_row hr hx)]
  exact product.add_left _

end

end Sys2Proof.Machine
end

section
/-! PROOFS. The macro instructions (41_diagonal_layer.md R106 to R116), for both widths at once: the registers each leaves, when it raises
OperandRange, and DMUL followed by ASUM as one layer (R113, R114). -/

namespace Sys2Proof.Machine

/-! ### The registers a macro instruction leaves. -/

section
variable {w : Width} {n : VReg} {r : DiagRow} (f : DiagRow → Word → Word → Word) (vs : VReg) (v : RegFile)

theorem dmulRegs_lane (hr : row w n.val = some r) (l : Fin 8) : (dmulRegs w v)[n][l] = dk r.kind v[n][l] := by
  rw [dmulRegs, mapState_row hr]
  exact lanes1_lane _ _ _ l.isLt

theorem sumRegs_lane (hr : row w n.val = some r) (l : Fin 8) : (sumRegs f w vs v)[n][l] = f r v[vs][l] v[n][l] := by
  rw [sumRegs, mapState_row hr]
  exact lanes2_lane _ _ _ _ l.isLt

/-- R104, R23: position 0 and the registers outside the state are left alone. -/
theorem dmulRegs_frame (hn : n.val = 0 ∨ w.positions ≤ n.val) : (dmulRegs w v)[n] = v[n] := mapState_frame hn _ _

theorem sumRegs_frame (hn : n.val = 0 ∨ w.positions ≤ n.val) : (sumRegs f w vs v)[n] = v[n] := mapState_frame hn _ _

/-- DMUL's registers, then ASUM's, are DLIN's (R114), the sum register lying outside the state. -/
theorem sumRegs_dmulRegs (hvs : w.positions ≤ vs.val) : sumRegs asumLane w vs (dmulRegs w v) = sumRegs dlinLane w vs v := by
  refine regFile_ext fun n => ?_
  cases hr : row w n.val with
  | none =>
    have hn := (row_none_iff w n).mp hr
    rw [sumRegs_frame _ _ _ hn, dmulRegs_frame _ hn, sumRegs_frame _ _ _ hn]
  | some r =>
    refine laneVec_ext fun l => ?_
    rw [sumRegs_lane _ _ _ hr, dmulRegs_frame _ (.inr hvs), dmulRegs_lane _ hr, sumRegs_lane _ _ _ hr]
    rfl

end

/-! ### One word out of range. -/

theorem not_lanes_of_bad {range : Word → Bool} {x : LaneVec} (h : ∃ l : Fin 8, range x[l] = false) :
    ¬∀ l : Fin 8, range x[l] = true := fun all => h.elim fun l hl => Bool.eq_false_iff.mp hl (all l)

theorem not_regs_of_bad {range : Word → Bool} {v : RegFile} {lo hi : Nat}
    (h : ∃ n : VReg, lo ≤ n.val ∧ n.val ≤ hi ∧ ∃ l : Fin 8, range v[n][l] = false) :
    ¬∀ n : VReg, lo ≤ n.val → n.val ≤ hi → ∀ l : Fin 8, range v[n][l] = true :=
  fun all => h.elim fun n ⟨hlo, hhi, bad⟩ => not_lanes_of_bad bad (all n hlo hhi)

/-- Every processed register's row, in the bounds in which R106 to R115 write the positions. -/
theorem exists_row {w : Width} {n : VReg} (lo : 1 ≤ n.val) (hi : n.val ≤ w.positions - 1) :
    ∃ r, row w n.val = some r ∧ (kindColumn w)[n.val - 1]? = some r.kind ∧ r.group = groupAt n.val ∧
      r.entry.residue = (residueColumn w).getD n.val 0 := row_columns w n lo (by omega)

theorem groupAt_add {i : Nat} (h : i ≤ 5) : groupAt i = .add := if_pos h

theorem groupAt_sub {i : Nat} (lo : 6 ≤ i) (hi : i ≤ 8) : groupAt i = .sub := by rw [groupAt, if_neg (by omega), if_pos hi]

theorem groupAt_sadd {i : Nat} (h : 9 ≤ i) : groupAt i = .sadd := by rw [groupAt, if_neg (by omega), if_neg (by omega)]

/-- Positions 1 to 8 require a canonical word (R105). -/
theorem range_groupAt_of_le {i : Nat} (h : i ≤ 8) : (groupAt i).range = canon := by
  rw [groupAt]
  split
  · rfl
  · rfl

/-! ### DMUL (R106, R107). -/

/-- R116 for DMUL of either width. -/
theorem dmulOf_spec (w : Width) (s : State) :
    (s.canonRegs 1 (w.positions - 1) →
      ∃ t, exec (dmulOf w) s = .next t ∧
        (∀ n : VReg, 1 ≤ n.val → n.val ≤ w.positions - 1 → ∃ kind, (kindColumn w)[n.val - 1]? = some kind ∧
          ∀ l : Fin 8, t.v[n][l] = dk kind s.v[n][l] ∧ srange t.v[n][l] = true ∧ (n.val ≤ 8 → canon t.v[n][l] = true) ∧
            (s.v[n][l] = 0#32 → t.v[n][l] = 0#32)) ∧
        (∀ n : VReg, n.val = 0 ∨ w.positions ≤ n.val → t.v[n] = s.v[n]) ∧
        t = { s with v := t.v, pc := s.pc + 1 }) ∧
    ((∃ n : VReg, 1 ≤ n.val ∧ n.val ≤ w.positions - 1 ∧ ∃ l : Fin 8, canon s.v[n][l] = false) →
      exec (dmulOf w) s = .next { s with cause := some .operandRange, runState := .fault }) := by
  rw [exec_dmulOf]
  constructor
  · intro hx
    rw [dmul_of_canonRegs hx]
    refine ⟨_, rfl, fun n lo hi => ?_, fun n hn => dmulRegs_frame s.v hn, rfl⟩
    obtain ⟨r, hr, hkind, hgroup, -⟩ := exists_row lo hi
    refine ⟨r.kind, hkind, fun l => ?_⟩
    have range := range_dk_of_row hr (hx n lo hi l)
    rw [State.completed_v, dmulRegs_lane s.v hr l]
    refine ⟨rfl, Group.srange_of_range range, fun h8 => ?_, fun zero => by rw [zero, dk_zero]⟩
    rwa [hgroup, range_groupAt_of_le h8] at range
  · intro bad
    exact congrArg Host.Outcome.next (dmul_of_not_canonRegs (not_regs_of_bad bad))

/-- Settles O22: DMUL of width 16; the examples are evaluated. -/
theorem dmul16MultipliesByTheDiagonal : Obligations.Dmul16MultipliesByTheDiagonal :=
  ⟨by decide, dmulOf_spec .w16, by decide, by decide, by decide⟩

/-- Settles O23: DMUL of width 24; the examples are evaluated. -/
theorem dmul24MultipliesByTheDiagonal : Obligations.Dmul24MultipliesByTheDiagonal :=
  ⟨by decide, dmulOf_spec .w24, by decide, by decide⟩

/-! ### ASUM (R110, R111). -/

section
variable {w : Width} {vs : VReg} {s : State}

/-- R116 for ASUM of either width, group by group. -/
theorem asumOf_spec (hvs : w.positions ≤ vs.val) :
    (s.canonReg vs → s.canonRegs 1 8 → s.signedRegs 9 (w.positions - 1) →
      ∃ t, exec (asumOf w vs) s = .next t ∧
        (∀ n : VReg, 1 ≤ n.val → n.val ≤ 5 → ∀ l : Fin 8, t.v[n][l] = fadd s.v[vs][l] s.v[n][l]) ∧
        (∀ n : VReg, 6 ≤ n.val → n.val ≤ 8 → ∀ l : Fin 8, t.v[n][l] = fsub s.v[vs][l] s.v[n][l]) ∧
        (∀ n : VReg, 9 ≤ n.val → n.val ≤ w.positions - 1 → ∀ l : Fin 8, t.v[n][l] = fsadd s.v[vs][l] s.v[n][l]) ∧
        (∀ n : VReg, 1 ≤ n.val → n.val ≤ w.positions - 1 → ∀ l : Fin 8, canon t.v[n][l] = true) ∧
        (∀ n : VReg, n.val = 0 ∨ w.positions ≤ n.val → t.v[n] = s.v[n]) ∧
        t = { s with v := t.v, pc := s.pc + 1 }) ∧
    ((∃ l : Fin 8, canon s.v[vs][l] = false) ∨
     (∃ n : VReg, 1 ≤ n.val ∧ n.val ≤ 8 ∧ ∃ l : Fin 8, canon s.v[n][l] = false) ∨
     (∃ n : VReg, 9 ≤ n.val ∧ n.val ≤ w.positions - 1 ∧ ∃ l : Fin 8, srange s.v[n][l] = false) →
      exec (asumOf w vs) s = .next { s with cause := some .operandRange, runState := .fault }) := by
  have small : 16 ≤ w.positions := by cases w <;> decide
  rw [exec_asumOf hvs]
  constructor
  · intro hs hy hsigned
    have lane (n : VReg) (lo : 1 ≤ n.val) (hi : n.val ≤ w.positions - 1) (l : Fin 8) :
        (sumRegs asumLane w vs s.v)[n][l] = ag (groupAt n.val) s.v[vs][l] s.v[n][l] := by
      obtain ⟨r, hr, -, hgroup, -⟩ := exists_row lo hi
      rw [sumRegs_lane _ _ _ hr, asumLane, hgroup]
    rw [asum_of_ranges ⟨hs, hy, hsigned⟩]
    refine ⟨_, rfl, fun n lo hi l => ?_, fun n lo hi l => ?_, fun n lo hi l => ?_, fun n lo hi l => ?_,
      fun n hn => sumRegs_frame _ vs s.v hn, rfl⟩
    · rw [State.completed_v, lane n lo (by omega) l, groupAt_add hi, ag]
    · rw [State.completed_v, lane n (by omega) (by omega) l, groupAt_sub lo hi, ag]
    · rw [State.completed_v, lane n (by omega) hi l, groupAt_sadd lo, ag]
    · obtain ⟨r, hr, -, hgroup, -⟩ := exists_row lo hi
      rw [State.completed_v, lane n lo hi l]
      refine canon_ag (hs l) ?_
      rw [← hgroup]
      exact (stateInRange_iff w _ s.v).mp ((groupState_iff w s).mpr ⟨hy, hsigned⟩) n r hr l
  · intro bad
    refine congrArg Host.Outcome.next (asum_of_not_ranges fun ⟨hs, hy, hsigned⟩ => ?_)
    rcases bad with bad | bad | bad
    · exact not_lanes_of_bad bad hs
    · exact not_regs_of_bad bad hy
    · exact not_regs_of_bad bad hsigned

end

/-- R70: a word of format M with a sum operand is illegal when its `vs` lies inside the state. -/
theorem decode_error_of_sumField {w : Word} (hop : bits w 31 26 = 0x09 ∨ bits w 31 26 = 0x0A)
    (hvs : bits w 15 11 < if bits w 0 0 = 0 then 16 else 24) : ∃ reason, decode w = .error reason := by
  rcases hop with hop | hop
  · rw [decode_of_asumOp hop, decodeSum_error_iff]
    exact .inr (sumField_illegal_iff.mpr hvs)
  · rw [decode_of_dlinOp hop, decodeSum_error_iff]
    exact .inr (sumField_illegal_iff.mpr hvs)

/-- The opcode and the width bit of a word of format M (R66). -/
theorem encodeM_op_width {op width : Nat} (hop : op < 64) (hw : width < 2) (vs : VReg) :
    bits (encodeM op vs width) 31 26 = op ∧ bits (encodeM op vs width) 0 0 = width := by
  obtain ⟨op, -, -, width⟩ := encodeM_fields hop hw vs
  exact ⟨op, width⟩

theorem fadd_zero_left {y : Word} (hy : canon y = true) : fadd 0#32 y = y := by
  refine BitVec.eq_of_toNat_eq ?_
  rw [toNat_fadd_mod (by decide) hy, BitVec.toNat_ofNat, Nat.zero_mod, Nat.zero_add,
    Nat.mod_eq_of_lt ((canon_iff y).mp hy)]

/-- Settles O24: ASUM of width 16. With a zero sum `fadd` and `fsadd` give the word's own residue, and `fsub` its negation. -/
theorem asum16FoldsTheSumIn : Obligations.Asum16FoldsTheSumIn := by
  refine ⟨fun vs s hvs => ?_, fun w hop hw hvs => decode_error_of_sumField (.inl hop) (by rwa [if_pos hw]),
    by decide, by decide, by decide, by decide⟩
  obtain ⟨op, width⟩ := encodeM_op_width (op := 0x09) (width := 0) (by decide) (by decide) vs
  obtain ⟨ok, bad⟩ := asumOf_spec (w := .w16) (s := s) hvs
  refine ⟨op, width, fun hs hy hsigned => ?_, bad⟩
  obtain ⟨t, done, add, sub, sadd, canonical, frame⟩ := ok hs hy hsigned
  refine ⟨t, done, add, sub, sadd, fun n lo hi l => ⟨canonical n lo hi l, fun zero h5 => ?_, fun zero h6 h8 => ?_,
    fun zero h9 => ?_⟩, frame⟩
  · rw [add n lo h5 l, zero, fadd_zero_left (hy n lo (by omega) l)]
  · rw [sub n h6 h8 l, zero]
  · rw [sadd n h9 hi l, toNat_fsadd_emod (hs l) (hsigned n h9 hi l), zero, BitVec.toNat_ofNat, Nat.zero_mod, Int.natCast_zero,
      Int.zero_add]

/-- Settles O25: ASUM of width 24, and R70 for its words. -/
theorem asum24FoldsTheSumIn : Obligations.Asum24FoldsTheSumIn := by
  refine ⟨fun vs s hvs => ?_, fun w hop hw hvs => decode_error_of_sumField (.inl hop) (by rwa [hw, if_neg (by decide)]),
    by decide⟩
  obtain ⟨op, width⟩ := encodeM_op_width (op := 0x09) (width := 1) (by decide) (by decide) vs
  exact ⟨op, width, asumOf_spec (w := .w24) hvs⟩

/-! ### DLIN (R114, R115) and the pair DMUL, ASUM (R113). -/

/-- Of two completed instructions the second decides the registers; with `pc` set back by one it is as if it had run alone. -/
theorem State.completed_completed_pc (s : State) (regs regs' : RegFile) :
    ({ (s.completed regs).completed regs' with pc := s.pc + 1 } : State) = s.completed regs' := rfl

section
variable {w : Width} {vs : VReg} {s : State}

/-- R116 for DLIN of either width; each lane's value is R102's. -/
theorem dlinOf_spec (hvs : w.positions ≤ vs.val) :
    (s.canonReg vs → s.canonRegs 1 (w.positions - 1) →
      ∃ t, exec (dlinOf w vs) s = .next t ∧
        (∀ n : VReg, 1 ≤ n.val → n.val ≤ w.positions - 1 → ∃ kind, (kindColumn w)[n.val - 1]? = some kind ∧
          ∀ l : Fin 8, t.v[n][l] = ag (groupAt n.val) s.v[vs][l] (dk kind s.v[n][l]) ∧
            t.v[n][l].toNat = layerOut w n.val s.v[vs][l].toNat s.v[n][l].toNat) ∧
        (∀ n : VReg, n.val = 0 ∨ w.positions ≤ n.val → t.v[n] = s.v[n]) ∧
        t = { s with v := t.v, pc := s.pc + 1 }) ∧
    ((∃ l : Fin 8, canon s.v[vs][l] = false) ∨
     (∃ n : VReg, 1 ≤ n.val ∧ n.val ≤ w.positions - 1 ∧ ∃ l : Fin 8, canon s.v[n][l] = false) →
      exec (dlinOf w vs) s = .next { s with cause := some .operandRange, runState := .fault }) := by
  rw [exec_dlinOf hvs]
  constructor
  · intro hs hx
    rw [dlin_of_canonRegs ⟨hs, hx⟩]
    refine ⟨_, rfl, fun n lo hi => ?_, fun n hn => sumRegs_frame _ vs s.v hn, rfl⟩
    obtain ⟨r, hr, hkind, hgroup, hresidue⟩ := exists_row lo hi
    refine ⟨r.kind, hkind, fun l => ?_⟩
    rw [State.completed_v, sumRegs_lane _ _ _ hr, ← hgroup, layerOut, ← hresidue]
    exact ⟨rfl, toNat_dlinLane hr (hs l) (hx n lo hi l)⟩
  · intro bad
    exact congrArg Host.Outcome.next
      (dlin_of_not_canonRegs fun ⟨hs, hx⟩ => bad.elim (not_lanes_of_bad · hs) (not_regs_of_bad · hx))

/-- ASUM completes from every state whose state registers and sum are those DMUL left: they are in the ranges it requires (R103, its last
sentence). -/
theorem asum_of_dmulRegs {t : State} (hx : s.canonRegs 1 (w.positions - 1)) (hs : s.canonReg vs) (sum : t.v[vs] = s.v[vs])
    (same : ∀ n : VReg, 1 ≤ n.val → n.val < w.positions → t.v[n] = (dmulRegs w s.v)[n]) :
    t.asum w vs = t.completed (sumRegs asumLane w vs t.v) := by
  refine asum_ok (fun l => ?_) ((stateInRange_iff w _ t.v).mpr fun n r hr l => ?_)
  · rw [sum]
    exact hs l
  · obtain ⟨lo, hi⟩ := row_bounds hr
    rw [same n lo hi, dmulRegs_lane _ hr]
    exact range_dk_of_row hr (hx n lo (Nat.le_sub_one_of_lt hi) l)

/-- R114's remarks on the pair DMUL, ASUM. -/
theorem dlinIsThePair_of_canonRegs (hvs : w.positions ≤ vs.val) (hx : s.canonRegs 1 (w.positions - 1)) :
    s.dlinIsThePair w vs := by
  have sum : (dmulRegs w s.v)[vs] = s.v[vs] := dmulRegs_frame s.v (.inr hvs)
  refine ⟨s.completed (dmulRegs w s.v), by rw [exec_dmulOf, dmul_of_canonRegs hx], rfl, fun hs => ?_, fun bad => ⟨?_, ?_⟩⟩
  · refine ⟨(s.completed (dmulRegs w s.v)).completed (sumRegs asumLane w vs (dmulRegs w s.v)), ?_, ?_, ?_⟩
    · rw [exec_asumOf hvs]
      exact congrArg Host.Outcome.next (asum_of_dmulRegs hx hs sum fun _ _ _ => rfl)
    · exact BitVec.add_assoc s.pc 1#9 1#9
    · rw [exec_dlinOf hvs, dlin_of_canonRegs ⟨hs, hx⟩, ← sumRegs_dmulRegs vs s.v hvs, State.completed_completed_pc]
  · rw [exec_asumOf hvs]
    exact congrArg Host.Outcome.next (asum_bad (.inl (sum.symm ▸ bad)))
  · rw [exec_dlinOf hvs]
    exact congrArg Host.Outcome.next (dlin_bad (.inl bad))

end

/-- Settles O26: DLIN of width 16, beside the pair, and R70 for its words. -/
theorem dlin16ComputesTheLayer : Obligations.Dlin16ComputesTheLayer := by
  refine ⟨fun vs s hvs => ?_, fun vs s => dlinIsThePair_of_canonRegs (w := .w16),
    fun w hop hw hvs => decode_error_of_sumField (.inr hop) (by rwa [if_pos hw]), by decide, by decide, by decide⟩
  obtain ⟨op, width⟩ := encodeM_op_width (op := 0x0A) (width := 0) (by decide) (by decide) vs
  exact ⟨op, width, dlinOf_spec (w := .w16) hvs⟩

/-- Settles O27: DLIN of width 24, beside the pair, and R70 for its words. -/
theorem dlin24ComputesTheLayer : Obligations.Dlin24ComputesTheLayer := by
  refine ⟨fun vs s hvs => ?_, fun vs s => dlinIsThePair_of_canonRegs (w := .w24),
    fun w hop hw hvs => decode_error_of_sumField (.inr hop) (by rwa [hw, if_neg (by decide)]), by decide⟩
  obtain ⟨op, width⟩ := encodeM_op_width (op := 0x0A) (width := 1) (by decide) (by decide) vs
  exact ⟨op, width, dlinOf_spec (w := .w24) hvs⟩

/-- Settles O29: ASUM's check passes on what DMUL left, and its result is DLIN's, lane by lane. -/
theorem dmulThenAsumIsTheDiagonalLayer : Obligations.DmulThenAsumIsTheDiagonalLayer := by
  intro w vs s hvs hx hs
  have hregs : s.canonRegs 1 (w.positions - 1) := fun n lo hi => hx n lo (by omega)
  refine ⟨s.completed (dmulRegs w s.v), by rw [exec_dmulOf, dmul_of_canonRegs hregs], State.completed_cause _ _,
    State.completed_runState _ _, fun t same sum => ?_⟩
  have sum : t.v[vs] = s.v[vs] := sum.trans (dmulRegs_frame s.v (.inr hvs))
  refine ⟨t.completed (sumRegs asumLane w vs t.v), by rw [exec_asumOf hvs, asum_of_dmulRegs hregs hs sum same],
    State.completed_cause _ _, State.completed_runState _ _, fun n lo hi l => ?_⟩
  obtain ⟨r, hr, -, -, hresidue⟩ := row_columns w n lo hi
  have value : (sumRegs asumLane w vs t.v)[n][l].toNat =
      (s.v[vs][l].toNat + (residueColumn w).getD n.val 0 * s.v[n][l].toNat) % Config.P := by
    rw [sumRegs_lane _ _ _ hr, same n lo hi, State.completed_v, dmulRegs_lane s.v hr, sum, ← hresidue]
    exact toNat_dlinLane hr (hs l) (hx n lo hi l)
  exact ⟨canon_of_toNat_eq_emod (by rw [State.completed_v, value, Int.natCast_emod]), value⟩

end Sys2Proof.Machine
end

section
/-! PROOFS. A macro instruction and its sequence of lane primitives (41_diagonal_layer.md R118): what each position's sequence sets, and what
all of them leave one after another. -/

namespace Sys2Proof.Machine

/-! ### Running a sequence. -/

section
variable {i : Instr} {is js : List Instr} {s t : State}

/-- The first instruction of a sequence completes where its operands are in range, and the rest runs from there. -/
theorem execSeq_cons (hw : i.wellFormed = true) (hi : i ≠ .halt) (hrun : s.runState = .run) (hr : operandsInRange i s = true) :
    execSeq (i :: is) s = execSeq is (s.completed (resultRegs i s.v)) := by
  simp [execSeq, exec_of_operandsInRange hw hr hi, hrun]

theorem execSeq_append (h : execSeq is s = .next t) (hrun : t.runState = .run) : execSeq (is ++ js) s = execSeq js t := by
  induction is generalizing s with
  | nil =>
    obtain rfl := Host.Outcome.next.inj h
    rfl
  | cons i is ih =>
    obtain ⟨u, hu, -⟩ := exec_shape i s
    simp only [List.cons_append, execSeq, hu] at h ⊢
    by_cases ur : u.runState = .run
    · rw [if_pos ur] at h ⊢
      exact ih h
    · rw [if_neg ur] at h
      obtain rfl := Host.Outcome.next.inj h
      exact absurd hrun ur

end

/-! ### A sequence that sets one register. -/

/-- From `s` the sequence runs to its end without stopping, leaves `x` in `v[d]`, and changes no other register among those `kept`. -/
def SetsReg (kept : VReg → Prop) (is : List Instr) (s : State) (d : VReg) (x : LaneVec) : Prop :=
  ∃ u, execSeq is s = .next u ∧ u.runState = .run ∧ u.v[d] = x ∧ ∀ n : VReg, n ≠ d → kept n → u.v[n] = s.v[n]

section
variable {kept : VReg → Prop} {is js : List Instr} {s : State} {d va vb vt vs : VReg} {x y : LaneVec}

/-- Two sequences one after the other set what the second sets; the first may have used `v[d]` itself or a register that is not kept. -/
theorem SetsReg.append {a : VReg} (first : SetsReg (fun _ => True) is s a x) (ha : ∀ n : VReg, n ≠ d → kept n → n ≠ a)
    (second : ∀ u : State, u.runState = .run → u.v[a] = x → (∀ n : VReg, n ≠ a → u.v[n] = s.v[n]) → SetsReg kept js u d y) :
    SetsReg kept (is ++ js) s d y := by
  obtain ⟨u, hu, urun, ua, uframe⟩ := first
  have uframe (n : VReg) (hn : n ≠ a) := uframe n hn trivial
  obtain ⟨u', hu', urun', ud, uframe'⟩ := second u urun ua uframe
  exact ⟨u', (execSeq_append hu urun).trans hu', urun', ud, fun n hn hk => (uframe' n hn hk).trans (uframe n (ha n hn hk))⟩

theorem setsReg_nil (hrun : s.runState = .run) : SetsReg kept [] s d s.v[d] := ⟨s, rfl, hrun, rfl, fun _ _ _ => rfl⟩

section
variable {i : Instr} (hw : i.wellFormed = true) (hi : i ≠ .halt) (hrun : s.runState = .run) (hr : operandsInRange i s = true)
include hw hi hrun hr

theorem unaryInstr_setsReg {f : Word → Word} (result : resultRegs i s.v = unaryRegs f d va s.v) :
    SetsReg kept [i] s d (lanes1 f s.v[va]) := by
  refine ⟨s.completed (unaryRegs f d va s.v), ?_, hrun, laneVec_ext fun l => ?_, fun n hn _ => unaryRegs_other _ _ hn⟩
  · rw [execSeq_cons hw hi hrun hr, result]
    rfl
  · rw [State.completed_v, unaryRegs_lane]
    exact (lanes1_lane _ _ _ l.isLt).symm

theorem binaryInstr_setsReg {f : Word → Word → Word} (result : resultRegs i s.v = binaryRegs f d va vb s.v) :
    SetsReg kept [i] s d (lanes2 f s.v[va] s.v[vb]) := by
  refine ⟨s.completed (binaryRegs f d va vb s.v), ?_, hrun, laneVec_ext fun l => ?_, fun n hn _ => binaryRegs_other _ _ hn⟩
  · rw [execSeq_cons hw hi hrun hr, result]
    rfl
  · rw [State.completed_v, binaryRegs_lane]
    exact (lanes2_lane _ _ _ _ l.isLt).symm

end

theorem vadd_setsReg (hrun : s.runState = .run) (ha : s.canonReg va) (hb : s.canonReg vb) :
    SetsReg kept [.vadd d va vb] s d (lanes2 fadd s.v[va] s.v[vb]) :=
  binaryInstr_setsReg (i := .vadd d va vb) rfl (by simp) hrun (decide_eq_true ⟨ha, hb⟩) rfl

/-- The instruction of a group computes `ag` in place. -/
theorem groupInstr_setsReg {group : Group} (hrun : s.runState = .run) (hs : s.canonReg vs)
    (hy : ∀ l : Fin 8, group.range s.v[d][l] = true) :
    SetsReg kept [groupInstr group vs d] s d (lanes2 (ag group) s.v[vs] s.v[d]) := by
  cases group with
  | add => exact binaryInstr_setsReg (i := .vadd d vs d) rfl (by simp) hrun (decide_eq_true ⟨hs, hy⟩) rfl
  | sub => exact binaryInstr_setsReg (i := .vsub d vs d) rfl (by simp) hrun (decide_eq_true ⟨hs, hy⟩) rfl
  | sadd => exact binaryInstr_setsReg (i := .vsadd d vs d) rfl (by simp) hrun (decide_eq_true ⟨hs, hy⟩) rfl

theorem canonReg_of_eq_lanes2_fadd (hx : ∀ l : Fin 8, canon x[l] = true) (h : s.v[d] = lanes2 fadd x x) : s.canonReg d := by
  intro l
  rw [h]
  simpa using canon_fadd (hx l) (hx l)

/-- The sequence of a kind computes `dk` in place; only TRI uses the scratch register. -/
theorem kindSequence_setsReg {kind : Kind} (hk : kind.legal = true) (hvt : d ≠ vt) (hrun : s.runState = .run)
    (hx : s.canonReg d) : SetsReg (· ≠ vt) (kindSequence kind d vt) s d (lanes1 (dk kind) s.v[d]) := by
  cases kind with
  | one =>
    have same : lanes1 (dk .one) s.v[d] = s.v[d] := laneVec_ext fun l => lanes1_lane _ _ _ l.isLt
    rw [same]
    exact setsReg_nil hrun
  | dbl =>
    have same : lanes1 (dk .dbl) s.v[d] = lanes2 fadd s.v[d] s.v[d] := laneVec_ext fun l => by simp [dk]
    rw [same]
    exact vadd_setsReg hrun hx hx
  | half => exact unaryInstr_setsReg (i := .vhalve d d) rfl (by simp) hrun (decide_eq_true hx) rfl
  | tri =>
    refine SetsReg.append (is := [.vadd vt d d]) (vadd_setsReg hrun hx hx) (fun n _ hn => hn) fun u urun ut uframe => ?_
    have ud : u.v[d] = s.v[d] := uframe d hvt
    have same : lanes1 (dk .tri) s.v[d] = lanes2 fadd u.v[vt] u.v[d] := by
      rw [ut, ud]
      exact laneVec_ext fun l => by simp [dk]
    rw [same]
    exact vadd_setsReg urun (canonReg_of_eq_lanes2_fadd hx ut) fun l => ud ▸ hx l
  | quad =>
    refine SetsReg.append (is := [.vadd d d d]) (vadd_setsReg hrun hx hx) (fun n hn _ => hn) fun u urun ud uframe => ?_
    have same : lanes1 (dk .quad) s.v[d] = lanes2 fadd u.v[d] u.v[d] := by
      rw [ud]
      exact laneVec_ext fun l => by simp [dk]
    rw [same]
    exact vadd_setsReg urun (canonReg_of_eq_lanes2_fadd hx ud) (canonReg_of_eq_lanes2_fadd hx ud)
  | p2k k => exact unaryInstr_setsReg (i := .vmul2k d d k) hk (by simp) hrun (decide_eq_true hx) rfl
  | n2k k => exact unaryInstr_setsReg (i := .vnmul2k d d k) hk (by simp) hrun (decide_eq_true hx) rfl

end

/-! ### All positions, one after another. -/

theorem mem_stateRegs {w : Width} {n : VReg} : n ∈ stateRegs w ↔ 1 ≤ n.val ∧ n.val < w.positions := by simp [stateRegs]

theorem nodup_stateRegs (w : Width) : (stateRegs w).Nodup := (List.nodup_finRange 32).filter _

theorem not_mem_stateRegs {w : Width} {n : VReg} : n ∉ stateRegs w ↔ row w n.val = none := by
  rw [mem_stateRegs, row_none_iff]
  omega

/-- Each position's sequence, from a state that holds `v`'s words there and outside the state, sets the position to what `f` makes of them. -/
def SetsPositions (kept : VReg → Prop) (seq : VReg → List Instr) (w : Width) (f : DiagRow → LaneVec → LaneVec) (v : RegFile) : Prop :=
  ∀ (n : VReg) (r : DiagRow) (s : State), row w n.val = some r → s.runState = .run → s.v[n] = v[n] →
    (∀ m : VReg, row w m.val = none → kept m → s.v[m] = v[m]) → SetsReg kept (seq n) s n (f r v[n])

section
variable {kept : VReg → Prop} {seq : VReg → List Instr} {w : Width} {f : DiagRow → LaneVec → LaneVec} {v : RegFile}
  (position : SetsPositions kept seq w f v) (hkept : ∀ n ∈ stateRegs w, kept n)
include position hkept

/-- Part of the way: the positions `regs` are still to do and hold `v`'s words, every other kept register is as the macro leaves it. -/
theorem execSeq_positions {regs : List VReg} (hregs : ∀ n ∈ regs, n ∈ stateRegs w) (nodup : regs.Nodup) {s : State}
    (hrun : s.runState = .run) (todo : ∀ n ∈ regs, s.v[n] = v[n])
    (done : ∀ n : VReg, n ∉ regs → kept n → s.v[n] = (mapState w f v)[n]) :
    ∃ u, execSeq (regs.flatMap seq) s = .next u ∧ u.runState = .run ∧ ∀ n : VReg, kept n → u.v[n] = (mapState w f v)[n] := by
  induction regs generalizing s with
  | nil => exact ⟨s, rfl, hrun, fun n => done n List.not_mem_nil⟩
  | cons d regs ih =>
    obtain ⟨hd, nodup⟩ := List.nodup_cons.mp nodup
    obtain ⟨stateD, stateRest⟩ := List.forall_mem_cons.mp hregs
    obtain ⟨todoD, todoRest⟩ := List.forall_mem_cons.mp todo
    obtain ⟨lo, hi⟩ := mem_stateRegs.mp stateD
    obtain ⟨r, hr, -⟩ := row_columns w d lo hi
    have outside (m : VReg) (hm : row w m.val = none) (hk : kept m) : s.v[m] = v[m] := by
      rw [done m (fun mem => not_mem_stateRegs.mpr hm (hregs m mem)) hk, mapState_other hm]
    obtain ⟨u, hu, urun, ud, uframe⟩ := position d r s hr hrun todoD outside
    rw [List.flatMap_cons, execSeq_append hu urun]
    refine ih stateRest nodup urun (fun n hn => ?_) (fun n hn hk => ?_)
    · rw [uframe n (fun e => hd (e ▸ hn)) (hkept n (stateRest n hn)), todoRest n hn]
    · by_cases e : n = d
      · rw [e, ud, mapState_row hr]
      · rw [uframe n e hk, done n (List.not_mem_cons_of_ne_of_not_mem e hn) hk]

theorem execSeq_stateRegs {s : State} (hrun : s.runState = .run) (hv : s.v = v) :
    ∃ u, execSeq ((stateRegs w).flatMap seq) s = .next u ∧ u.runState = .run ∧
      ∀ n : VReg, kept n → u.v[n] = (mapState w f v)[n] := by
  subst hv
  exact execSeq_positions position hkept (fun _ => id) (nodup_stateRegs w) hrun (fun _ _ => rfl)
    fun n hn _ => (mapState_other (not_mem_stateRegs.mp hn) f s.v).symm

end

theorem operandsInRange_dmulOf {w : Width} {s : State} (h : operandsInRange (dmulOf w) s = true) :
    s.canonRegs 1 (w.positions - 1) := by
  cases w <;> exact of_decide_eq_true h

theorem operandsInRange_asumOf {w : Width} {vs : VReg} {s : State} (h : operandsInRange (asumOf w vs) s = true) :
    s.canonReg vs ∧ s.canonRegs 1 8 ∧ s.signedRegs 9 (w.positions - 1) := by
  cases w <;> exact of_decide_eq_true h

section
variable {w : Width} {s : State}

theorem dmulSequence_setsPositions {vt : VReg} (hvt : w.positions ≤ vt.val) (hx : s.canonRegs 1 (w.positions - 1)) :
    SetsPositions (· ≠ vt) (fun n => kindSequence ((kindColumn w).getD (n.val - 1) .one) n vt) w
      (fun r x => lanes1 (dk r.kind) x) s.v := by
  intro n r t hr hrun hn _
  obtain ⟨lo, hi⟩ := row_bounds hr
  have kind : (kindColumn w).getD (n.val - 1) .one = r.kind := by
    obtain ⟨r', hr', hkind, -⟩ := row_columns w n lo hi
    obtain rfl := Option.some.inj (hr'.symm.trans hr)
    rw [List.getD_eq_getElem?_getD, hkind, Option.getD_some]
  have apart : n ≠ vt := fun e => by rw [e] at hi; omega
  have hx : t.canonReg n := fun l => by
    rw [hn]
    exact hx n lo (Nat.le_sub_one_of_lt hi) l
  show SetsReg _ (kindSequence _ n vt) t n (lanes1 (dk r.kind) s.v[n])
  rw [kind, ← hn]
  exact kindSequence_setsReg (row_consistent hr).legal apart hrun hx

theorem asumSequence_setsPositions {vs : VReg} (hvs : w.positions ≤ vs.val) (hs : s.canonReg vs)
    (hy : s.canonRegs 1 8 ∧ s.signedRegs 9 (w.positions - 1)) :
    SetsPositions (fun _ => True) (fun n => [groupInstr (groupAt n.val) vs n]) w (fun r y => lanes2 (ag r.group) s.v[vs] y) s.v := by
  intro n r t hr hrun hn outside
  have sum : t.v[vs] = s.v[vs] := outside vs ((row_none_iff w vs).mpr (.inr hvs)) trivial
  show SetsReg _ [groupInstr (groupAt n.val) vs n] t n (lanes2 (ag r.group) s.v[vs] s.v[n])
  rw [← group_of_row hr, ← hn, ← sum]
  refine groupInstr_setsReg hrun (fun l => ?_) fun l => ?_
  · rw [sum]
    exact hs l
  · rw [hn]
    exact (stateInRange_iff w _ s.v).mp ((groupState_iff w s).mpr hy) n r hr l

end

/-- Settles O30: each position's sequence sets that position's register to what the macro instruction leaves there. -/
theorem macroEqualsItsPrimitiveSequence : Obligations.MacroEqualsItsPrimitiveSequence := by
  refine ⟨fun w vt s hvt hrun hr => ?_, fun w vs s hvs hrun hr => ?_⟩
  · have hx := operandsInRange_dmulOf hr
    obtain ⟨u, hu, urun, regs⟩ := execSeq_stateRegs (dmulSequence_setsPositions hvt hx)
      (fun n hn e => by have := (mem_stateRegs.mp hn).2; rw [e] at this; omega) hrun rfl
    exact ⟨s.completed (dmulRegs w s.v), u, by rw [exec_dmulOf, dmul_of_canonRegs hx], hu, urun, regs⟩
  · have hy := operandsInRange_asumOf hr
    obtain ⟨u, hu, urun, regs⟩ := execSeq_stateRegs (asumSequence_setsPositions hvs hy.1 hy.2) (fun _ _ => trivial) hrun rfl
    refine ⟨s.completed (sumRegs asumLane w vs s.v), u, by rw [exec_asumOf hvs, asum_of_ranges hy], ?_, urun,
      regFile_ext fun n => regs n trivial⟩
    rw [asumSequence, List.map_eq_flatMap]
    exact hu

end Sys2Proof.Machine
end

section
/-! PROOFS. The sequencer (42_sequencing.md): a step runs the decoded instruction (R130), HALT stops the unit at its index (R132), every run
ends within 257 steps (R133, R134), and the registers keep their words outside RUN (R137). -/

namespace Sys2Proof.Machine

/-! ### One step of a running unit (R130, R132). -/

theorem step_exec {s : State} {w : Word} {i : Instr} (hr : s.runState = .run) (he : s.nextEvent = .unitStep) (hp : s.pc.toNat < 256)
    (hw : programWord s.pmem s.pc.toNat = some w) (hd : decode w = .ok i) : step s = exec i s.taken := by
  rw [step_eq, he]
  exact sequencerTurn_exec (s := s.taken) hr (fetch_word hp hw) hd

/-- Settles O37. -/
theorem stepRunsTheDecodedInstruction : Obligations.StepRunsTheDecodedInstruction := fun _ _ _ => step_exec

/-- Settles O31: the fetched word is HALT's, and a START in HALTED sets STATE back to RUN. -/
theorem haltStopsAtItsIndex : Obligations.HaltStopsAtItsIndex := by
  refine ⟨by decide, fun _ => rfl, fun s hi hr hp hw => ⟨?_, ?_, fun hc => ?_⟩⟩
  · rw [step_exec hr (nextEvent_nil hi) hp hw decode_haltWord, taken_nil hi]
    rfl
  · rw [step_writeCtrl rfl, writeCtrl_start (by decide) (by decide) (.inr rfl), State.taken, ← hr, ← hi]
    rfl
  · refine Eq.trans (statusWord_of (r := .halted) (c := none) rfl hc) ?_
    decide

/-! ### Runs (R133, R134). -/

theorem TurnShape.inbox {s t : State} (h : TurnShape s t) : t.inbox = s.inbox := by
  cases h with
  | still _ | overrun _ _ | illegal _ _ _ _ _ => rfl
  | ran _ _ _ _ _ _ _ ht => exact (exec_next_shape ht).inbox

theorem run_succ_of_step {s t : State} (h : step s = .next t) (k : Nat) : core.run (k + 1) s = core.run k t := by
  simp only [Host.Core.run, core, h]

/-- The end of a run (R133) of the program in `m`: well, at one of its HALTs, or badly. -/
def State.AtEndOfRun (t : State) (m : Memory) : Prop :=
  (t.endedWell = true ∧ programWord m t.pc.toNat = some 0xFC000000#32) ∨ t.endedBadly = true

/-- In the middle of a run that no event interrupts, with every program word written that it can still reach. -/
structure State.MidRun (s : State) : Prop where
  inv : s.Inv
  inbox : s.inbox = []
  run : s.runState = .run
  written : s.programWritten

section
variable {s t : State}

theorem State.MidRun.pc_le (h : s.MidRun) : s.pc.toNat ≤ 256 :=
  have ⟨hpc, _⟩ := h.inv
  hpc

/-- The step of a run does not stop the machine: the word it fetches was written. -/
theorem State.MidRun.exists_step (h : s.MidRun) : ∃ t, step s = .next t ∧ TurnShape s t := by
  rw [step_eq, nextEvent_nil h.inbox, taken_nil h.inbox]
  obtain ⟨t, ht⟩ | ⟨-, -, hp, hw⟩ := sequencerTurn_next_or_unwritten h.pc_le
  · exact ⟨t, ht, sequencerTurn_shape ht⟩
  · exact absurd hw (h.written ⟨_, hp⟩ le_rfl)

/-- A step ends the run, or the run goes on at the next index. -/
theorem State.MidRun.turn_cases (h : s.MidRun) (ht : TurnShape s t) :
    t.AtEndOfRun s.pmem ∨ (t.MidRun ∧ t.pmem = s.pmem ∧ t.pc.toNat = s.pc.toNat + 1) := by
  obtain ⟨hr, hc, hpc, hw⟩ | ⟨hr, -, -⟩ | ⟨hr, -, hpc, -⟩ := ht.run_cases h.run
  · have hcause := hc.trans (h.inv.cause_none (by simp [h.run]))
    exact .inl (.inl ⟨decide_eq_true ⟨hr, hcause⟩, hpc ▸ hw⟩)
  · exact .inl (.inr (decide_eq_true hr))
  · have hle := h.pc_le
    have next : t.pc.toNat = s.pc.toNat + 1 := by
      bv_omega
    exact .inr ⟨⟨h.inv.turnShape ht, ht.inbox.trans h.inbox, hr,
      fun a ha => ht.pmem ▸ h.written a (by omega)⟩, ht.pmem, next⟩

end

/-- `257 - pc` bounds the steps left: each step that does not end the run moves `pc` on, and `pc` stays at most 256. -/
theorem State.MidRun.reaches_end {s : State} (h : s.MidRun) :
    ∃ k t, 1 ≤ k ∧ k ≤ 257 - s.pc.toNat ∧ core.run k s = .next t ∧ t.AtEndOfRun s.pmem := by
  obtain ⟨t, hstep, ht⟩ := h.exists_step
  have hs := h.pc_le
  obtain hend | ⟨ht, hm, hpc⟩ := h.turn_cases ht
  · exact ⟨1, t, le_rfl, by omega, run_succ_of_step hstep 0, hend⟩
  · have hle := ht.pc_le
    obtain ⟨k, u, -, hk, hrun, hend⟩ := ht.reaches_end
    exact ⟨k + 1, u, by omega, by omega, (run_succ_of_step hstep k).trans hrun, hm ▸ hend⟩
termination_by 256 - s.pc.toNat

/-- Settles O43. -/
theorem everyRunEndsWithin257Steps : Obligations.EveryRunEndsWithin257Steps :=
  fun _ inv inbox run written => State.MidRun.reaches_end ⟨inv, inbox, run, written⟩

/-! ### The registers outside RUN (R137). -/

theorem writeCtrl_v (s : State) (w : Word) : (s.writeCtrl w).v = s.v := by
  unfold State.writeCtrl
  split
  · rfl
  · split <;> rfl

/-- A host write that changes `v[n]` is an accepted one to a lane of `v[n]` (R42, R47). -/
theorem windowWrite_v_ne {s : State} {width : Nat} {offset : BitVec 12} {w : Word} {n : VReg}
    (h : (windowWrite s width offset w).1.v[n] ≠ s.v[n]) :
    width = 32 ∧ offset.toNat / 32 = n.val ∧ (s.runState = .idle ∨ s.runState = .halted) := by
  have effect := windowWrite_effect s width offset w
  generalize windowWrite s width offset w = p at h effect
  cases effect with
  | refused | program _ _ _ _ | pc _ _ _ => exact absurd rfl h
  | ctrl _ _ => exact absurd (congrArg (·[n]) (writeCtrl_v s w)) h
  | lane m l hw ht hl =>
    obtain ⟨-, hm, -⟩ := target_lane ht
    have same : n = m := by
      by_contra hn
      exact h (frame_set s.v m n _ (decide_eq_false hn))
    exact ⟨hw, by rw [same, hm], hl⟩

/-- Settles O58: outside RUN the sequencer's turn changes nothing, and of the other events only a power-on and a lane write reach `v`. -/
theorem registersPersistOutsideRun : Obligations.RegistersPersistOutsideRun := by
  intro s t n hrun hstep h
  cases step_shape hstep with
  | turn _ ht =>
    obtain rfl := ht.eq_of_not_run hrun
    exact absurd rfl h
  | read _ _ _ _ _ | resetInput _ => exact absurd rfl h
  | write width offset w he =>
    obtain ⟨rfl, hn, hl⟩ := windowWrite_v_ne (s := s.taken) h
    exact .inr ⟨offset, w, he, hn, hl⟩
  | powerOn regs he => exact .inl ⟨regs, he⟩

end Sys2Proof.Machine
end

section
/-! PROOFS. The faults (60_exceptions.md): when OperandRange is raised (R142), the order of the fault tests (R145), what raising a fault
records (R146), FAULT up to the next reset (R148), and the outputs done and fault (R151). -/

namespace Sys2Proof.Machine

/-! ### When a fault is raised (R142, R145). -/

/-- Settles O32: HALT reads no operand, and every other instruction completes with its result registers or raises OperandRange. -/
theorem operandRangeExactlyByTheTable : Obligations.OperandRangeExactlyByTheTable := by
  intro i s hw
  refine ⟨fun hr => ?_, exec_of_not_operandsInRange hw⟩
  by_cases hi : i = .halt
  · subst hi
    exact ⟨_, rfl, rfl, rfl⟩
  · exact ⟨_, exec_of_operandsInRange hw hr hi, rfl, (if_neg hi).symm⟩

/-- Settles O39: the fetch comes before the decoder, and a decoded instruction is well-formed, so that only its operands are left to test. -/
theorem faultsAreTestedInOrder : Obligations.FaultsAreTestedInOrder := by
  intro s hin hrun
  refine ⟨step_overrun hin hrun, fun w hp hw => ⟨fun ⟨reason, hd⟩ regs => ?_, fun i hd => ?_⟩⟩
  · exact step_illegal (s := { s with v := regs }) hin hrun hp hw hd
  · obtain ⟨legal, -⟩ := decodedWordIsItsEncoding w i hd
    obtain ⟨completes, faults⟩ := operandRangeExactlyByTheTable i s legal
    rw [step_exec hrun (nextEvent_nil hin) hp hw hd, taken_nil hin]
    refine ⟨faults, fun hr => ?_⟩
    obtain ⟨t, ht, hcause, hstate⟩ := completes hr
    refine ⟨t, ht, ?_, hcause⟩
    rw [hstate, hrun]
    split <;> decide

/-! ### What raising a fault records (R146). -/

section
variable {s t : State}

/-- An instruction that takes a running unit to FAULT did nothing but raise a fault. -/
theorem ExecShape.eq_raise {i : Instr} (h : ExecShape i s t) (hrun : s.runState = .run) (hfault : t.runState = .fault) :
    ∃ f, t = s.raise f := by
  cases h with
  | illegal _ => exact ⟨.illegalInstruction, rfl⟩
  | range => exact ⟨.operandRange, rfl⟩
  | halt _ => cases hfault
  | done _ _ _ => cases hrun.symm.trans hfault

/-- The same of the sequencer's turn, whichever of its tests raised the fault. -/
theorem TurnShape.eq_raise (h : TurnShape s t) (hrun : s.runState = .run) (hfault : t.runState = .fault) : ∃ f, t = s.raise f := by
  cases h with
  | still hstopped => exact absurd hrun hstopped
  | overrun _ _ => exact ⟨.pcOverrun, rfl⟩
  | illegal _ _ _ _ _ => exact ⟨.illegalInstruction, rfl⟩
  | ran _ _ _ _ _ _ _ ht => exact (exec_next_shape ht).eq_raise hrun hfault

end

/-- Settles O40. -/
theorem raisingAFaultRecordsItAndNothingElse : Obligations.RaisingAFaultRecordsItAndNothingElse := by
  refine ⟨fun f s => ⟨rfl, by cases f <;> rfl, rfl⟩, fun s t hrun he hstep hfault => ?_⟩
  rw [step_eq, he] at hstep
  exact (sequencerTurn_shape hstep).eq_raise hrun hfault

/-! ### The events that are resets and STARTs (R35). -/

theorem isReset_write {width : Nat} {offset : BitVec 12} {w : Word} (h : (Event.access (.write width offset w)).isReset = true) :
    (width = 32 ∧ offset = 0x800#12) ∧ w.getLsbD 1 = true :=
  (Bool.and_eq_true_iff.mp h).imp_left of_decide_eq_true

theorem isStart_cases {e : Event} (h : e.isStart = true) :
    ∃ w, e = .access (.write 32 0x800#12 w) ∧ w.getLsbD 1 = false ∧ w.getLsbD 0 = true := by
  cases e with
  | unitStep | resetInput | powerOn _ => cases h
  | access a =>
    cases a with
    | read _ _ => cases h
    | write width offset w =>
      by_cases hctrl : width = 32 ∧ offset = 0x800#12
      · obtain ⟨rfl, rfl⟩ := hctrl
        rw [isStart_writeCtrl, Bool.and_eq_true, Bool.not_eq_true'] at h
        exact ⟨w, rfl, h⟩
      · cases (isReset_isStart_of_not_ctrl w hctrl).2.symm.trans h

/-! ### FAULT up to the next reset (R148). -/

section
variable {s t : State}

/-- In FAULT a host write that is no reset leaves the unit as it is: only a loadable unit is written, and START is ignored. -/
theorem windowWrite_in_fault {width : Nat} {offset : BitVec 12} {w : Word} (hf : s.runState = .fault)
    (hn : (Event.access (.write width offset w)).isReset = false) : (windowWrite s width offset w).1 = s := by
  have notLoadable : ¬(s.runState = .idle ∨ s.runState = .halted) := by simp [hf]
  have effect := windowWrite_effect s width offset w
  generalize windowWrite s width offset w = p at effect
  cases effect with
  | refused => rfl
  | lane _ _ _ _ hl | program _ _ _ hl | pc _ _ hl => exact absurd hl notLoadable
  | ctrl hw ho =>
    subst hw ho
    exact writeCtrl_ignored hn (.inr (.inr hf))

/-- In FAULT an event that is no reset adds at most an answer. -/
theorem step_in_fault (hf : s.runState = .fault) (hn : s.nextEvent.isReset = false) (h : step s = .next t) :
    ∃ answers, t = { s.taken with replies := s.replies ++ answers } := by
  cases step_shape h with
  | turn _ ht =>
    have stopped : s.taken.runState ≠ .run := by simp [hf]
    rw [ht.eq_of_not_run stopped]
    exact ⟨[], by rw [List.append_nil]; rfl⟩
  | read _ _ r _ _ => exact ⟨[r], rfl⟩
  | write width offset w he =>
    rw [he] at hn
    rw [windowWrite_in_fault (s := s.taken) hf hn]
    exact ⟨[_], rfl⟩
  | resetInput he | powerOn _ he =>
    rw [he] at hn
    cases hn

/-- A reset leaves IDLE with no fault recorded, whatever the state before it (R36, R160). -/
theorem step_of_isReset (hreset : s.nextEvent.isReset = true) (h : step s = .next t) : t.runState = .idle ∧ t.cause = none := by
  cases step_shape h with
  | resetInput _ | powerOn _ _ => exact ⟨rfl, rfl⟩
  | turn he _ | read _ _ _ he _ =>
    rw [he] at hreset
    cases hreset
  | write width offset w he =>
    rw [he] at hreset
    obtain ⟨⟨rfl, rfl⟩, h1⟩ := isReset_write hreset
    rw [windowWrite_ctrl, writeCtrl_reset h1]
    exact ⟨rfl, rfl⟩

end

/-- Settles O41: without a reset the unit is left as `step_in_fault` says; registers, program words and PC are not written in FAULT. -/
theorem onlyAResetLeavesFault : Obligations.OnlyAResetLeavesFault := by
  intro s t hf hstep
  refine ⟨fun hn => ?_, fun hreset => step_of_isReset hreset hstep, fun offset w he ho => ?_, fun hstart => ?_⟩
  · obtain ⟨answers, rfl⟩ := step_in_fault hf hn hstep
    exact ⟨hf, rfl, rfl, rfl, rfl⟩
  · have refused : (windowWrite s 32 offset w).2 = .refused :=
      (windowWrite_eq_refused_iff s 32 offset w).mpr (.inr (.inr (.inr (ho.imp (⟨·, .inr hf⟩) (⟨·, .inr hf⟩)))))
    obtain rfl := Host.Outcome.next.inj ((step_write_refused he refused).symm.trans hstep)
    rfl
  · obtain ⟨w, he, h1, -⟩ := isStart_cases hstart
    obtain ⟨-, -, ignored⟩ := ctrlWriteResetsOrStarts s w he
    exact Host.Outcome.next.inj (hstep.symm.trans (ignored h1 (.inr (.inr hf))))

/-! ### The outputs (R151). -/

theorem done_iff (s : State) : s.done = true ↔ s.runState = .halted := decide_eq_true_iff

theorem faultOut_iff (s : State) : s.faultOut = true ↔ s.runState = .fault := decide_eq_true_iff

/-- In FAULT one of the three faults is recorded (R28, R140). -/
theorem State.Inv.cause_in_fault {s : State} (h : s.Inv) (hf : s.runState = .fault) :
    s.cause = some .illegalInstruction ∨ s.cause = some .operandRange ∨ s.cause = some .pcOverrun := by
  obtain ⟨-, hcause, -⟩ := h
  obtain ⟨f, hc⟩ := Option.ne_none_iff_exists'.mp (hcause.mpr hf)
  cases f <;> simp [hc]

/-- Settles O56: each value of STATUS says which STATE and CAUSE it was read in (R31). -/
theorem outputsFollowState : Obligations.OutputsFollowState := by
  refine fun s => ⟨done_iff s, faultOut_iff s, fun h => ?_⟩
  obtain ⟨-, -, -, -, values⟩ := statusReadsStateAndCause s
  obtain ⟨-, -, halted, illegal, range, overrun⟩ := values h
  rw [done_iff, faultOut_iff]
  refine ⟨halted.symm, ?_⟩
  simp only [List.mem_cons, List.not_mem_nil, or_false, illegal, range, overrun, ← and_or_left]
  exact iff_self_and.mpr h.cause_in_fault

end Sys2Proof.Machine
end

section
/-! PROOFS. What each of the three resets leaves (10_state.md R36; 70_reset_and_hazards.md R160). -/

namespace Sys2Proof.Machine

/-! ### The three resets (R160). -/

theorem isReset_cases {e : Event} (h : e.isReset = true) :
    e = .resetInput ∨ (∃ regs, e = .powerOn regs) ∨ ∃ w, e = .access (.write 32 0x800#12 w) ∧ w.getLsbD 1 = true := by
  cases e with
  | unitStep => cases h
  | resetInput => exact .inl rfl
  | powerOn regs => exact .inr (.inl ⟨regs, rfl⟩)
  | access a =>
    cases a with
    | read _ _ => cases h
    | write width offset w =>
      obtain ⟨⟨rfl, rfl⟩, h1⟩ := isReset_write h
      exact .inr (.inr ⟨w, rfl, h1⟩)

section
variable {s : State}

theorem step_resetInput (h : s.nextEvent = .resetInput) : step s = .next s.taken.resetControl := by
  rw [step_eq, h]
  rfl

theorem step_powerOn {regs : RegFile} (h : s.nextEvent = .powerOn regs) : step s = .next (s.taken.powerOn regs) := by
  rw [step_eq, h]
  rfl

theorem step_writeCtrl_reset {w : Word} (h : s.nextEvent = .access (.write 32 0x800#12 w)) (h1 : w.getLsbD 1 = true) :
    step s = .next (s.taken.resetControl.reply .accepted) := by
  rw [step_writeCtrl h, writeCtrl_reset h1]

/-- Every reset completes, takes its event and clears the control state; only power-on touches the storage (R36, R160). -/
theorem step_reset (h : s.nextEvent.isReset = true) :
    ∃ t, step s = .next t ∧ (t.runState = .idle ∧ t.cause = none ∧ t.pc = 0#9) ∧ t.inbox = s.inbox.tail ∧
      ((∀ regs, s.nextEvent ≠ .powerOn regs) → t.v = s.v ∧ t.pmem = s.pmem) := by
  obtain he | ⟨regs, he⟩ | ⟨w, he, h1⟩ := isReset_cases h
  · exact ⟨_, step_resetInput he, ⟨rfl, rfl, rfl⟩, rfl, fun _ => ⟨rfl, rfl⟩⟩
  · exact ⟨_, step_powerOn he, ⟨rfl, rfl, rfl⟩, rfl, fun hn => absurd he (hn regs)⟩
  · exact ⟨_, step_writeCtrl_reset he h1, ⟨rfl, rfl, rfl⟩, rfl, fun _ => ⟨rfl, rfl⟩⟩

end

/-! ### What the host and the platform see of the reset control state (R31, R32, R151). -/

section
variable {s : State}

theorem outputs_low_of_idle (hr : s.runState = .idle) : s.done = false ∧ s.faultOut = false := by
  constructor
  · rw [Bool.eq_false_iff, Ne, done_iff, hr]
    decide
  · rw [Bool.eq_false_iff, Ne, faultOut_iff, hr]
    decide

theorem statusWord_of_idle (hr : s.runState = .idle) (hc : s.cause = none) : statusWord s = 0#32 :=
  (statusWord_of hr hc).trans (by decide)

theorem pcWord_of_zero (hp : s.pc = 0#9) : pcWord s = 0#32 := by
  rw [pcWord, hp]
  rfl

end

/-- Settles O44: the control state is what `step_reset` says, and the outputs, STATUS and PC follow from it. -/
theorem resetLeavesTheListedValues : Obligations.ResetLeavesTheListedValues := by
  rintro s _ rfl hreset
  obtain ⟨t, hstep, ⟨hr, hc, hp⟩, hinbox, hkeep⟩ := step_reset hreset
  obtain ⟨hdone, hfault⟩ := outputs_low_of_idle hr
  exact ⟨t, hstep, hr, hc, hp, hdone, hfault, statusWord_of_idle hr hc, pcWord_of_zero hp, hinbox, hkeep⟩

end Sys2Proof.Machine
end
